-- ==== Sys2Proof/Word.lean ====
section
/-! DEFINITION. The word types of the machine (`00_scope.md` R9, `10_state.md` R21 to R24,
`30_encoding.md` R71). Every value is unsigned; nothing is ever sign-extended. -/

namespace Sys2Proof

/-- A byte of `mem`, a general register, a timer (R21, R27, R28, R50). -/
abbrev Byte := BitVec 8

/-- A 16-bit quantity: `pc`, `I`, a call-stack entry, an instruction word (R23, R24, R25, R70). -/
abbrev Word := BitVec 16

/-- A register index, the X or Y field of an instruction (R71). -/
abbrev RegIdx := BitVec 4

/-- The 4-bit immediate N of an instruction (R71). -/
abbrev Nibble := BitVec 4

/-- The 12-bit address operand NNN of an instruction (R71). -/
abbrev Imm12 := BitVec 12

/-- A CHIP-8 key number, 0 to 15 (`45_keypad.md` R155). -/
abbrev Key := BitVec 4

end Sys2Proof
end

