-- ==== Sys2Proof/Config.lean ====
section
/-! DEFINITION. The implementation parameters of the core (`00_scope.md` R7) as one plain
structure, the range R7 gives each of them, and the free values: the environment's answers that
no rule constrains (`10_state.md` R35). -/

namespace Sys2Proof

/-- The parameters the spec leaves open (R7, decisions D3 to D6). The values the spec takes are
`Machine.takenConfig`. A `State` carries its configuration, so a statement about every state is a
statement about every configuration (DESIGN CHOICE,
log entry 1). -/
structure Config where
  /-- `MEM_SIZE`, the number of bytes of `mem`. -/
  memSize : Nat
  /-- `STACK_DEPTH`, the number of entries of the call stack. -/
  stackDepth : Nat
  /-- `DISPLAY_WIDTH`, pixels per row (W). -/
  width : Nat
  /-- `DISPLAY_HEIGHT`, rows (H). -/
  height : Nat
  /-- `FONT_DATA`, the 80 glyph bytes. -/
  font : Vector Byte 80
deriving DecidableEq, Repr

/-- The range column of R7. -/
abbrev Config.Legal (c : Config) : Prop :=
  4096 ≤ c.memSize ∧ c.memSize ≤ 65536 ∧ 16 ≤ c.stackDepth ∧ 1 ≤ c.width ∧ 1 ≤ c.height

/-- What `Present()` may answer (R35). -/
inductive PresentAnswer where
  | ok
  | fail
deriving DecidableEq, Repr, Inhabited

/-- FREE VALUE: what `Rnd()` answers when the environment's answer was not laid down beforehand.
The argument is the number of queries asked so far. No body: nothing constrains it (R35, R123,
decision D18; DESIGN CHOICE, log entry 5). -/
opaque Config.freeRandomByte : Nat → Byte

/-- FREE VALUE: what `KeyDown(k)` answers when the environment's answer was not laid down
beforehand (R35; DESIGN CHOICE, log entry 5). -/
opaque Config.freeKeyDown : Nat → Key → Bool

/-- FREE VALUE: what `Present()` answers when the environment's answer was not laid down
beforehand (R35, decision D19; DESIGN CHOICE, log entry 5). -/
opaque Config.freePresent : Nat → PresentAnswer

end Sys2Proof
end

