-- ==== Sys2Proof/Machine/Platform.lean ====
section
/-! DEFINITION. The fixed addresses of the core and the parameter values the spec takes
(`00_scope.md` R7, `70_reset_and_hazards.md` R213). -/

namespace Sys2Proof.Machine

/-- `FONT_BASE`, the address of glyph 0 (R7). -/
def fontBase : Nat := 0x050

/-- `GLYPH_BYTES` (R7). -/
def glyphBytes : Nat := 5

/-- The length of `FONT_DATA`: 16 glyphs of 5 bytes (R7). -/
def fontLength : Nat := 80

/-- `ROM_BASE`, the address of the first ROM byte (R7). -/
def romBase : Nat := 0x200

/-- `FONT_DATA`, the 80 bytes R213 prints; each line is two glyphs. The spec marks them as general
knowledge, decision D6 (PRESUMED, log entry 2). -/
def takenFont : Vector Byte 80 :=
  #v[0xF0, 0x90, 0x90, 0x90, 0xF0, 0x20, 0x60, 0x20, 0x20, 0x70,
     0xF0, 0x10, 0xF0, 0x80, 0xF0, 0xF0, 0x10, 0xF0, 0x10, 0xF0,
     0x90, 0x90, 0xF0, 0x10, 0x10, 0xF0, 0x80, 0xF0, 0x10, 0xF0,
     0xF0, 0x80, 0xF0, 0x90, 0xF0, 0xF0, 0x10, 0x20, 0x40, 0x40,
     0xF0, 0x90, 0xF0, 0x90, 0xF0, 0xF0, 0x90, 0xF0, 0x10, 0xF0,
     0xF0, 0x90, 0xF0, 0x90, 0x90, 0xE0, 0x90, 0xE0, 0x90, 0xE0,
     0xF0, 0x80, 0x80, 0x80, 0xF0, 0xE0, 0x90, 0x90, 0x90, 0xE0,
     0xF0, 0x80, 0xF0, 0x80, 0xF0, 0xF0, 0x80, 0xF0, 0x80, 0x80]

/-- The "value taken" column of R7 (decisions D3 to D6; DESIGN CHOICE and PRESUMED, log
entry 2). -/
def takenConfig : Config :=
  { memSize := 4096, stackDepth := 16, width := 64, height := 32, font := takenFont }

end Sys2Proof.Machine
end

