-- ==== Sys2Proof/Machine/State.lean ====
section
/-! DEFINITION. The state of the core: the elements of `10_state.md` R20, plain data, and the
reset state of R37 for an empty ROM. Beside them stand two things that are no state of the core:
the configuration (`00_scope.md` R7), which no transition writes, and the environment's side of
the interface (R35, R36). -/

namespace Sys2Proof.Machine

/-- The faults of `60_exceptions.md` R181. The machine TAKES a fault: the `fault` latch is set and
the next state is the one R188 gives (`State.raise`), so no step answers `Host.Outcome.fault`
(DESIGN CHOICE, log entry 3). Latching a fault is safe: a faulted state is never an accepted end of a run. -/
inductive Fault where
  /-- Code 1. Raised by the fetch of any step and by DXYN, FX33, FX55, FX65 when an address of the
  access is at or above `MEM_SIZE`; `addr` is the lowest such address. Safe. -/
  | memoryOutOfRange (addr : Nat)
  /-- Code 2. Raised by 00EE when the call stack is empty; `ia` is its address. Safe. -/
  | stackUnderflow (ia : Word)
  /-- Code 3. Raised by 2NNN when the call stack is full; `ia` is its address. Safe. -/
  | stackOverflow (ia : Word)
  /-- Code 4. Raised by 00E0 and DXYN when `Present()` answers `fail`; `ia` is the instruction's
  address. Safe. -/
  | displayFlushFailure (ia : Word)
  /-- Code 5. Raised by EX9E and EXA1 when Vx > 15; `k` is Vx. Safe. -/
  | keyIndexOutOfRange (k : Byte)
deriving DecidableEq, Repr

/-- Why the model answers nothing. No instruction and no step refuses. -/
inductive Refusal where
  /-- An instruction without a meaning, by its mnemonic: raised by no arm of `exec`. Safe. -/
  | notModelled (mnemonic : String)
  /-- The `reset(rom)` event with a ROM longer than `MEM_SIZE − 0x200` (R203): "refused, and no
  core state exists". Raised by `resetEvent`. Safe. -/
  | oversizedRom (size : Nat)
deriving DecidableEq, Repr

/-- The key-wait state machine's three values (R29). -/
inductive WaitKey where
  | notWaiting
  | armed
  | captured (k : Key)
deriving DecidableEq, Repr

/-- The pixel grid (R31): H rows of W pixels, row 0 first, column 0 first, `true` lit (decision D29;
DESIGN CHOICE, log entry 22). -/
abbrev Grid := List (List Bool)

/-- The two conditions that are logged and no fault (R36, R187). -/
inductive DiagKind where
  | nativeCall
  | unknownOpcode
deriving DecidableEq, Repr

/-- What the core gives to the environment during a step (R36): a diagnostic, or the `Present()`
event with the grid the environment may read at that instant. The third output, the result of the
step, is `stepResult`. -/
inductive Output where
  | diag (kind : DiagKind) (ia op : Word)
  | presented (grid : Grid)
deriving DecidableEq, Repr

/-- MODEL'S OWN: the environment's side of the interface, no state of the core (R20 lists none of
it). The three answer lists are what the environment will answer to the next queries of each kind
(R35), oldest first; when a list is used up, the answer is the free value of `Config` at `asked`
(DESIGN CHOICE, log entries 4 and 5). -/
structure Env where
  /-- Answers to `KeyDown(k)` to come. -/
  keyAnswers : List Bool
  /-- Answers to `Rnd()` to come. -/
  rndAnswers : List Byte
  /-- Answers to `Present()` to come. -/
  presentAnswers : List PresentAnswer
  /-- How many queries have been asked: the free values' argument. -/
  asked : Nat
  /-- Everything the core has put out, newest first. -/
  outputs : List Output
deriving DecidableEq, Repr

/-- The machine. -/
structure State where
  /-- The configuration (R7). -/
  cfg : Config
  /-- `mem` (R30, R50): the cells that differ from the reset image without a ROM, in the canonical
  form of `Memory.wf`. -/
  mem : List Host.Cell
  /-- `pc`, the program counter (R23). -/
  pc : Word
  /-- `I`, the index register (R24). -/
  I : Word
  /-- `V[0]` to `V[15]` (R21, R22). -/
  V : Vector Byte 16
  /-- `stack[0]` to `stack[STACK_DEPTH−1]`, stale entries included (R25). -/
  stack : List Word
  /-- `sp`, the number of call-stack entries in use (R26). -/
  sp : Nat
  /-- `DT`, the delay timer (R27). -/
  DT : Byte
  /-- `ST`, the sound timer (R28). -/
  ST : Byte
  /-- `wait_key` (R29). -/
  waitKey : WaitKey
  /-- `fb`, the framebuffer (R31). -/
  fb : Grid
  /-- `fault`, the fault latch (R32). -/
  fault : Option Fault
  /-- The environment's side (MODEL'S OWN). -/
  env : Env
deriving DecidableEq, Repr

/-- A grid with every pixel off. -/
def darkGrid (cfg : Config) : Grid :=
  List.replicate cfg.height (List.replicate cfg.width false)

/-- An environment that has said nothing yet and been told nothing (DESIGN CHOICE, log entry 5). -/
def Env.silent : Env :=
  { keyAnswers := [], rndAnswers := [], presentAnswers := [], asked := 0, outputs := [] }

/-- R37 for a core with configuration `cfg` and an empty ROM. `pc`, `waitKey`, `sp` and the memory
are the document's; the zeros of `V`, `I`, `DT`, `ST`, `stack`, `fb` are decision D12 and the clear
latch is decision D8 (DESIGN CHOICE, log entry 6). -/
def State.resetFor (cfg : Config) : State :=
  { cfg := cfg
    mem := []
    pc := 0x0200#16
    I := 0x0000#16
    V := Vector.replicate 16 0x00#8
    stack := List.replicate cfg.stackDepth 0x0000#16
    sp := 0
    DT := 0x00#8
    ST := 0x00#8
    waitKey := .notWaiting
    fb := darkGrid cfg
    fault := none
    env := Env.silent }

/-- The machine right after `reset` with an empty ROM, at the parameter values the spec takes. -/
def State.reset : State := State.resetFor takenConfig

end Sys2Proof.Machine
end

