-- ==== Sys2Proof/Machine/Memory.lean ====
section
/-! DEFINITION. The byte memory as plain data: what an unlisted address reads as, reading and
writing one cell, and the canonical form (`20_memory.md` R50, R51, R57). -/

namespace Sys2Proof.Machine

/-- What an unlisted address reads as: the reset contents without a ROM (R51), the font at
0x050..0x09F and zero elsewhere (DEDUCED, log entry 7). -/
def background (font : Vector Byte 80) (a : Nat) : Byte :=
  if fontBase ≤ a ∧ a < fontBase + fontLength then font.toList.getD (a - fontBase) 0x00#8
  else 0x00#8

/-- The listed value of an address. -/
def Memory.lookup : List Host.Cell → Nat → Option Byte
  | [], _ => none
  | (k, w) :: rest, a => if k = a then some w else Memory.lookup rest a

/-- The byte at an address. -/
def Memory.read (font : Vector Byte 80) (m : List Host.Cell) (a : Nat) : Byte :=
  (Memory.lookup m a).getD (background font a)

/-- List an address, in rising order. -/
def Memory.insert (a : Nat) (v : Byte) : List Host.Cell → List Host.Cell
  | [] => [(a, v)]
  | (k, w) :: rest =>
    if a < k then (a, v) :: (k, w) :: rest
    else if a = k then (a, v) :: rest
    else (k, w) :: Memory.insert a v rest

/-- Unlist an address. -/
def Memory.erase (a : Nat) : List Host.Cell → List Host.Cell
  | [] => []
  | (k, w) :: rest => if a = k then Memory.erase a rest else (k, w) :: Memory.erase a rest

/-- Store a byte, keeping the canonical form: a value the unlisted address reads as is not
listed. -/
def Memory.write (font : Vector Byte 80) (m : List Host.Cell) (a : Nat) (v : Byte) :
    List Host.Cell :=
  if v = background font a then Memory.erase a m else Memory.insert a v m

/-- The canonical form: addresses strictly rising, inside `mem`, and no cell that says what an
unlisted address reads as. -/
abbrev Memory.wf (cfg : Config) (m : List Host.Cell) : Prop :=
  m.Pairwise (fun c d => c.1 < d.1) ∧
    ∀ c ∈ m, c.1 < cfg.memSize ∧ c.2 ≠ background cfg.font c.1

end Sys2Proof.Machine
end

