-- ==== Sys2Proof/Machine/Ops.lean ====
section
/-! DEFINITION. The named operations every meaning is written with: registers, memory, call stack,
pixels, taking a fault, outputs, and the fetch's primitives. -/

namespace Sys2Proof.Machine

/-! ### General registers (R21, R22) -/

/-- The index of VF, the flag register (R22). -/
def vf : RegIdx := 0xF#4

/-- `V[x]`. Every 4-bit index is a register and none is hard-wired (R21). -/
def State.reg (s : State) (x : RegIdx) : Byte := s.V.get x.toFin

/-- `V[x] <- b`. -/
def State.writeReg (s : State) (x : RegIdx) (b : Byte) : State :=
  { s with V := s.V.set x.toNat b x.isLt }

/-- `V[0]`, …, `V[n−1]`, in order. -/
def State.regsBelow (s : State) (n : Nat) : List Byte :=
  (List.range n).map fun i => s.reg (BitVec.ofNat 4 i)

/-- `V[i] <- bs[0]`, `V[i+1] <- bs[1]`, … -/
def State.writeRegsFrom (i : Nat) : List Byte → State → State
  | [], s => s
  | b :: bs, s => State.writeRegsFrom (i + 1) bs (s.writeReg (BitVec.ofNat 4 i) b)

/-! ### Memory (R50 to R53, R57) -/

/-- The byte at an address, without the bounds check. -/
def State.peek (s : State) (a : Nat) : Byte := Memory.read s.cfg.font s.mem a

/-- Store a byte, without the bounds check. -/
def State.poke (s : State) (a : Nat) (v : Byte) : State :=
  { s with mem := Memory.write s.cfg.font s.mem a v }

/-- `MemRead(addr, 1)` (R52): the address is an exact integer, never wrapped (R53). -/
def State.memRead (s : State) (a : Nat) : Except Fault Byte :=
  if a < s.cfg.memSize then .ok (s.peek a) else .error (.memoryOutOfRange a)

/-- `MemWrite(addr, 1, v)` (R52). A meaning that stores tests all its addresses first (`spanFault`)
and then pokes, which is `MemWrite` at each of them (`memWrite_of_lt`). -/
def State.memWrite (s : State) (a : Nat) (v : Byte) : Except Fault State :=
  if a < s.cfg.memSize then .ok (s.poke a v) else .error (.memoryOutOfRange a)

/-- The bytes at `a`, `a+1`, …, `a+n−1`. -/
def State.peekMany (s : State) (a : Nat) : Nat → List Byte
  | 0 => []
  | n + 1 => s.peek a :: State.peekMany s (a + 1) n

/-- Store bytes at `a`, `a+1`, …, in order of rising address (R55). -/
def State.pokeMany (a : Nat) : List Byte → State → State
  | [], s => s
  | b :: bs, s => State.pokeMany (a + 1) bs (s.poke a b)

/-- The check an instruction makes before its first write (R188, decision D9; DESIGN CHOICE,
log entry 16): `last` is the
highest address the access uses and the reported address is max(I, MEM_SIZE). -/
def State.spanFault (s : State) (last : Nat) : Option Fault :=
  if s.cfg.memSize ≤ last then some (.memoryOutOfRange (max s.I.toNat s.cfg.memSize)) else none

/-! ### Faults: entry, and no return (R184, R185) -/

/-- Taking a fault (R184): the latch is set and nothing else happens. There is no saved `pc`, no
vector and no mode. There is no return either (R185): only `resetEvent` clears the latch. -/
def State.raise (s : State) (f : Fault) : State := { s with fault := some f }

/-- The fault codes of R181 (decision D21; DESIGN CHOICE, log entry 26). -/
def Fault.code : Fault → Nat
  | .memoryOutOfRange _ => 1
  | .stackUnderflow _ => 2
  | .stackOverflow _ => 3
  | .displayFlushFailure _ => 4
  | .keyIndexOutOfRange _ => 5

/-! ### Program counter (R23, R92, R113) -/

/-- `pc <- target`. -/
def State.setPc (s : State) (target : Word) : State := { s with pc := target }

/-- The advance before dispatch (R92): `pc <- (ia + 2) mod 65536`. -/
def State.advance (s : State) : State := s.setPc (s.pc + 2#16)

/-- `ia`, the address of the instruction being executed. During dispatch `pc` holds `ia + 2`
modulo 65536 (R9, R92), so `ia` is `pc − 2` modulo 65536 (DEDUCED, log entry 19). -/
def State.ia (s : State) : Word := s.pc - 2#16

/-- The skip primitive of R113, taken when `taken` holds. -/
def State.skipIf (s : State) (taken : Bool) : State :=
  s.setPc (if taken then s.pc + 2#16 else s.pc)

/-! ### The other registers (R24, R27, R28, R29) -/

/-- `I <- w`. -/
def State.setI (s : State) (w : Word) : State := { s with I := w }

/-- `DT <- b`. -/
def State.setDT (s : State) (b : Byte) : State := { s with DT := b }

/-- `ST <- b`. -/
def State.setST (s : State) (b : Byte) : State := { s with ST := b }

/-- `wait_key <- w`. -/
def State.setWaitKey (s : State) (w : WaitKey) : State := { s with waitKey := w }

/-! ### Call stack (R25, R26) -/

/-- `stack[j]`. -/
def State.stackAt (s : State) (j : Nat) : Word := s.stack.getD j 0x0000#16

/-- `stack[sp] <- w; sp <- sp + 1` (decision D20; DESIGN CHOICE, log entry 18). -/
def State.push (s : State) (w : Word) : State :=
  { s with stack := s.stack.set s.sp w, sp := s.sp + 1 }

/-- `sp <- sp − 1`. The entry keeps its value (R105). -/
def State.pop (s : State) : State := { s with sp := s.sp - 1 }

/-! ### Pixels (R31, R146, R148) -/

/-- `grid[r][c]`; off outside the grid. -/
def pixelAt (g : Grid) (r c : Nat) : Bool := (g.getD r []).getD c false

/-- `grid[r][c] <- not grid[r][c]`. -/
def flipPixel (g : Grid) (r c : Nat) : Grid := g.modify r fun row => row.modify c not

/-- `fb[r][c]`. -/
def State.pixel (s : State) (r c : Nat) : Bool := pixelAt s.fb r c

/-- `fb <- g`. -/
def State.setFb (s : State) (g : Grid) : State := { s with fb := g }

/-- *clear* (R146): every pixel off. -/
def State.clearFb (s : State) : State := s.setFb (darkGrid s.cfg)

/-! ### Outputs (R36) -/

/-- Put out one output. -/
def State.emit (s : State) (o : Output) : State :=
  { s with env := { s.env with outputs := o :: s.env.outputs } }

/-- `Diag(kind, ia, op)` (R36): changes no state of the core (decision D26; DESIGN CHOICE, log
entry 11). -/
def State.diag (s : State) (kind : DiagKind) (op : Word) : State := s.emit (.diag kind s.ia op)

end Sys2Proof.Machine
end

