-- ==== Sys2Proof/Machine/Operands.lean ====
section
/-! DEFINITION. The operand forms (`30_encoding.md` R73): zero-extension of immediates and bytes,
effective addresses, sprite bits, decimal digits and the glyph address. -/

namespace Sys2Proof.Machine

/-- `zext_16(NNN)` (R73). -/
def zextImm (nnn : Imm12) : Word := nnn.setWidth 16

/-- `zext_16(b)` of a register (R73, R112, R169). -/
def zextByte (b : Byte) : Word := b.setWidth 16

/-- `zext_8(k)` of a captured key (R158). -/
def zextKey (k : Key) : Byte := k.setWidth 8

/-- The effective address `I + offset`: an exact integer, not wrapped (R53). -/
def State.ea (s : State) (offset : Nat) : Nat := s.I.toNat + offset

/-- The pixel of a sprite row at column offset `j`: offset 0 is bit 7 (R149). -/
def spriteBit (row : Byte) (j : Nat) : Bool := row.getLsbD (7 - j)

/-- The three decimal digits of a byte, hundreds first (R171). -/
def bcdDigits (b : Byte) : List Byte :=
  [BitVec.ofNat 8 (b.toNat / 100), BitVec.ofNat 8 (b.toNat / 10 % 10), BitVec.ofNat 8 (b.toNat % 10)]

/-- The address of the glyph of a byte: `FONT_BASE + 5 * Vx`, all eight bits of Vx used (R170). -/
def glyphAddress (b : Byte) : Word := BitVec.ofNat 16 (fontBase + glyphBytes * b.toNat)

end Sys2Proof.Machine
end

