-- ==== Sys2Proof/Machine/Flags.lean ====
section
/-! DEFINITION. Every flag computation of the machine. A flag is the whole byte VF, 0x00 or 0x01
(`10_state.md` R22), and the two orders of writing result and flag (`43_alu.md` R130). -/

namespace Sys2Proof.Machine

/-- A flag as the byte written to VF (R22). -/
def flagByte (b : Bool) : Byte := if b then 0x01#8 else 0x00#8

/-- Carry out of bit 7 of `a + b` (R135). -/
def carryFlag (a b : Byte) : Byte := flagByte (decide (255 < a.toNat + b.toNat))

/-- No borrow in `a − b` (R136, R138). -/
def notBorrowFlag (a b : Byte) : Byte := flagByte (decide (b.toNat ≤ a.toNat))

/-- The bit a right shift of `b` shifts out (R137). -/
def lowBitFlag (b : Byte) : Byte := flagByte (b.getLsbD 0)

/-- The bit a left shift of `b` shifts out (R139). -/
def highBitFlag (b : Byte) : Byte := flagByte (b.getLsbD 7)

/-- `V[x] <- r`, then `VF <- flag`: the order of 8XY1 to 8XY4 (R130; decision D15:
DESIGN CHOICE, log entry 9). -/
def State.resultThenFlag (s : State) (x : RegIdx) (r flag : Byte) : State :=
  (s.writeReg x r).writeReg vf flag

/-- `VF <- flag`, then `V[x] <- r`: the order of 8XY5, 8XY6, 8XY7, 8XYE (R130; decision D15: DESIGN CHOICE, log
entry 9). -/
def State.flagThenResult (s : State) (x : RegIdx) (r flag : Byte) : State :=
  (s.writeReg vf flag).writeReg x r

end Sys2Proof.Machine
end

