-- ==== Sys2Proof/Machine/Alu.lean ====
section
/-! DEFINITION. Register-to-register arithmetic (`43_alu.md` R130 to R140). Operands are copied
before anything is written (R130). -/

namespace Sys2Proof.Machine

/-- R131. -/
def execLdReg (x y : RegIdx) (s : State) : Host.Outcome State Fault Refusal :=
  .next (s.writeReg x (s.reg y))

/-- R132. -/
def execOrReg (x y : RegIdx) (s : State) : Host.Outcome State Fault Refusal :=
  .next (s.resultThenFlag x (s.reg x ||| s.reg y) (flagByte false))

/-- R133. -/
def execAndReg (x y : RegIdx) (s : State) : Host.Outcome State Fault Refusal :=
  .next (s.resultThenFlag x (s.reg x &&& s.reg y) (flagByte false))

/-- R134. -/
def execXorReg (x y : RegIdx) (s : State) : Host.Outcome State Fault Refusal :=
  .next (s.resultThenFlag x (s.reg x ^^^ s.reg y) (flagByte false))

/-- R135. -/
def execAddReg (x y : RegIdx) (s : State) : Host.Outcome State Fault Refusal :=
  .next (s.resultThenFlag x (s.reg x + s.reg y) (carryFlag (s.reg x) (s.reg y)))

/-- R136. -/
def execSubReg (x y : RegIdx) (s : State) : Host.Outcome State Fault Refusal :=
  .next (s.flagThenResult x (s.reg x - s.reg y) (notBorrowFlag (s.reg x) (s.reg y)))

/-- R137: the old Vx plays no part (decision D34; DESIGN CHOICE, log entry 23). -/
def execShrReg (x y : RegIdx) (s : State) : Host.Outcome State Fault Refusal :=
  .next (s.flagThenResult x (s.reg y >>> 1) (lowBitFlag (s.reg y)))

/-- R138. -/
def execSubnReg (x y : RegIdx) (s : State) : Host.Outcome State Fault Refusal :=
  .next (s.flagThenResult x (s.reg y - s.reg x) (notBorrowFlag (s.reg y) (s.reg x)))

/-- R139: the old Vx plays no part (decision D34; DESIGN CHOICE, log entry 23). -/
def execShlReg (x y : RegIdx) (s : State) : Host.Outcome State Fault Refusal :=
  .next (s.flagThenResult x (s.reg y <<< 1) (highBitFlag (s.reg y)))

end Sys2Proof.Machine
end

