-- ==== Sys2Proof/Machine/Environment.lean ====
section
/-! DEFINITION. The three questions the core may ask the environment during a step
(`10_state.md` R35) and the *present* operation (`44_display.md` R146). Each answer is the next one
laid down in `Env`, and the free value of `Config` where none is. -/

namespace Sys2Proof.Machine

/-- `Rnd()`'s answer. -/
def State.rndAnswer (s : State) : Byte :=
  s.env.rndAnswers.headD (Config.freeRandomByte s.env.asked)

/-- `Rnd()` has been asked once. -/
def State.afterRnd (s : State) : State :=
  { s with env := { s.env with rndAnswers := s.env.rndAnswers.tail, asked := s.env.asked + 1 } }

/-- `KeyDown(k)`'s answer. -/
def State.keyAnswer (s : State) (k : Key) : Bool :=
  s.env.keyAnswers.headD (Config.freeKeyDown s.env.asked k)

/-- `KeyDown` has been asked once. -/
def State.afterKey (s : State) : State :=
  { s with env := { s.env with keyAnswers := s.env.keyAnswers.tail, asked := s.env.asked + 1 } }

/-- `Present()`'s answer. -/
def State.presentAnswer (s : State) : PresentAnswer :=
  s.env.presentAnswers.headD (Config.freePresent s.env.asked)

/-- `Present()` has been raised once, with the grid shown. -/
def State.afterPresent (s : State) : State :=
  { s with
    env := { s.env with
      presentAnswers := s.env.presentAnswers.tail
      asked := s.env.asked + 1
      outputs := .presented s.fb :: s.env.outputs } }

/-- The latch after a `Present()` (R146): `fail` raises `DisplayFlushFailure(ia)`. -/
def presentFault (answer : PresentAnswer) (ia : Word) (old : Option Fault) : Option Fault :=
  match answer with
  | .ok => old
  | .fail => some (.displayFlushFailure ia)

/-- *present* (R146): raise `Present()` once; a `fail` answer latches the fault, and the writes
made before it stay (R188, decision D19; DESIGN CHOICE, log entry 17). -/
def State.present (s : State) : State :=
  { s.afterPresent with fault := presentFault s.presentAnswer s.ia s.fault }

end Sys2Proof.Machine
end

