-- ==== Sys2Proof/Machine/Display.lean ====
section
/-! DEFINITION. The framebuffer controller's instructions (`44_display.md` R145 to R149). -/

namespace Sys2Proof.Machine

/-- *toggle* (R148): a lit pixel turned off sets VF. -/
def State.toggle (s : State) (r c : Nat) : State :=
  { s with
    V := if s.pixel r c then s.V.set vf.toNat (flagByte true) vf.isLt else s.V
    fb := flipPixel s.fb r c }

/-- One pixel of a sprite row: toggled when the sprite bit is 1 and the column is inside the grid,
clipped otherwise (R149). -/
def State.drawPixel (r x0 : Nat) (row : Byte) (s : State) (j : Nat) : State :=
  if spriteBit row j ∧ x0 + j < s.cfg.width then s.toggle r (x0 + j) else s

/-- The eight pixels of a sprite row, leftmost first (R149). -/
def State.drawRow (x0 y0 : Nat) (s : State) (r : Nat) : State :=
  (List.range 8).foldl (State.drawPixel (y0 + r) x0 (s.peek (s.ea r))) s

/-- The column of the sprite's anchor, `Vx mod W`. -/
def State.anchorX (s : State) (x : RegIdx) : Nat := (s.reg x).toNat % s.cfg.width

/-- The row of the sprite's anchor, `Vy mod H`. -/
def State.anchorY (s : State) (y : RegIdx) : Nat := (s.reg y).toNat % s.cfg.height

/-- R, the number of rows drawn: rows below the grid are clipped and not read (R149). -/
def State.drawnRows (s : State) (y : RegIdx) (n : Nibble) : Nat :=
  min n.toNat (s.cfg.height - s.anchorY y)

/-- The latch R149's check leaves: a row that would be read lies at or above `MEM_SIZE`. -/
def State.drawFault (s : State) (y : RegIdx) (n : Nibble) : Option Fault :=
  if s.drawnRows y n = 0 then none else s.spanFault (s.ea (s.drawnRows y n - 1))

/-- The drawing itself: VF cleared, then every row (R149). The anchor is taken from the registers
before VF is written. -/
def State.drawSprite (s : State) (x y : RegIdx) (n : Nibble) : State :=
  (List.range (s.drawnRows y n)).foldl (State.drawRow (s.anchorX x) (s.anchorY y))
    (s.writeReg vf (flagByte false))

/-- R147: VF is not written. -/
def execCls (s : State) : Host.Outcome State Fault Refusal :=
  .next s.clearFb.present

/-- R149. -/
def execDrw (x y : RegIdx) (n : Nibble) (s : State) : Host.Outcome State Fault Refusal :=
  .next (match s.drawFault y n with
    | some f => s.raise f
    | none => (s.drawSprite x y n).present)

end Sys2Proof.Machine
end

