-- ==== Sys2Proof/Machine/Flow.lean ====
section
/-! DEFINITION. `SYS` and unknown words (`40_step_cycle.md` R94, R95), control transfer and the
register skips (`41_flow.md` R105 to R113). Every meaning starts from the state after the advance
of R92. -/

namespace Sys2Proof.Machine

/-- R94: one diagnostic, nothing else. The word is `op = 0 ++ NNN`. -/
def execSys (nnn : Imm12) (s : State) : Host.Outcome State Fault Refusal :=
  .next (s.diag .nativeCall (zextImm nnn))

/-- R95: an unknown word raises one diagnostic and is passed over. It is no instruction of R75, so
the step calls it, not `exec` (decision D14; DESIGN CHOICE, log entry 12). -/
def execUnknown (op : Word) (s : State) : Host.Outcome State Fault Refusal :=
  .next (s.diag .unknownOpcode op)

/-- R105. -/
def execRet (s : State) : Host.Outcome State Fault Refusal :=
  .next (if s.sp = 0 then s.raise (.stackUnderflow s.ia)
    else s.pop.setPc (s.stackAt (s.sp - 1)))

/-- R106. -/
def execJp (nnn : Imm12) (s : State) : Host.Outcome State Fault Refusal :=
  .next (s.setPc (zextImm nnn))

/-- R107: the pushed `pc` is the advanced one. The stack is full from `STACK_DEPTH` on. -/
def execCall (nnn : Imm12) (s : State) : Host.Outcome State Fault Refusal :=
  .next (if s.cfg.stackDepth ≤ s.sp then s.raise (.stackOverflow s.ia)
    else (s.push s.pc).setPc (zextImm nnn))

/-- R108. -/
def execSeImm (x : RegIdx) (nn : Byte) (s : State) : Host.Outcome State Fault Refusal :=
  .next (s.skipIf (s.reg x == nn))

/-- R109. -/
def execSneImm (x : RegIdx) (nn : Byte) (s : State) : Host.Outcome State Fault Refusal :=
  .next (s.skipIf (s.reg x != nn))

/-- R110; N is not examined (R76, decision D13; DESIGN CHOICE, log entry 13). -/
def execSeReg (x y : RegIdx) (_n : Nibble) (s : State) : Host.Outcome State Fault Refusal :=
  .next (s.skipIf (s.reg x == s.reg y))

/-- R111; N is not examined (R76, decision D13; DESIGN CHOICE, log entry 13). -/
def execSneReg (x y : RegIdx) (_n : Nibble) (s : State) : Host.Outcome State Fault Refusal :=
  .next (s.skipIf (s.reg x != s.reg y))

/-- R112: the offset register is V0, whatever the top nibble of NNN. -/
def execJpV0 (nnn : Imm12) (s : State) : Host.Outcome State Fault Refusal :=
  .next (s.setPc (zextImm nnn + zextByte (s.reg 0x0#4)))

end Sys2Proof.Machine
end

