-- ==== Sys2Proof/Machine/Immediate.lean ====
section
/-! DEFINITION. Immediate loads and adds and the random byte (`42_immediate.md` R120 to R123). -/

namespace Sys2Proof.Machine

/-- R120. -/
def execLdImm (x : RegIdx) (nn : Byte) (s : State) : Host.Outcome State Fault Refusal :=
  .next (s.writeReg x nn)

/-- R121: modulo 256, VF not written. -/
def execAddImm (x : RegIdx) (nn : Byte) (s : State) : Host.Outcome State Fault Refusal :=
  .next (s.writeReg x (s.reg x + nn))

/-- R122. -/
def execLdI (nnn : Imm12) (s : State) : Host.Outcome State Fault Refusal :=
  .next (s.setI (zextImm nnn))

/-- R123: `Rnd()` is asked exactly once. -/
def execRnd (x : RegIdx) (nn : Byte) (s : State) : Host.Outcome State Fault Refusal :=
  .next (s.afterRnd.writeReg x (s.rndAnswer &&& nn))

end Sys2Proof.Machine
end

