-- ==== Sys2Proof/Machine/Keypad.lean ====
section
/-! DEFINITION. The keypad instructions (`45_keypad.md` R155 to R159). -/

namespace Sys2Proof.Machine

/-- The key a register names, when it names one (R155). -/
def keyOf (b : Byte) : Key := b.setWidth 4

/-- A skip on the key Vx: `KeyIndexOutOfRange` before any query when Vx > 15, else one query and a
skip when its answer is `want` (R156, R157; decision D16: DESIGN CHOICE, log entry 14). -/
def State.skipOnKey (s : State) (x : RegIdx) (want : Bool) : State :=
  if 15 < (s.reg x).toNat then s.raise (.keyIndexOutOfRange (s.reg x))
  else s.afterKey.skipIf (s.keyAnswer (keyOf (s.reg x)) == want)

/-- R156. -/
def execSkp (x : RegIdx) (s : State) : Host.Outcome State Fault Refusal :=
  .next (s.skipOnKey x true)

/-- R157. -/
def execSknp (x : RegIdx) (s : State) : Host.Outcome State Fault Refusal :=
  .next (s.skipOnKey x false)

/-- R158: the blocking key read; `pc − 2` is back to `ia` (decision D33; DESIGN CHOICE, log entry
23). -/
def execLdVxK (x : RegIdx) (s : State) : Host.Outcome State Fault Refusal :=
  .next (match s.waitKey with
    | .notWaiting => (s.setWaitKey .armed).setPc (s.pc - 2#16)
    | .armed => s.setPc (s.pc - 2#16)
    | .captured k => (s.writeReg x (zextKey k)).setWaitKey .notWaiting)

end Sys2Proof.Machine
end

