-- ==== Sys2Proof/Machine/Transfer.lean ====
section
/-! DEFINITION. Timers, the index register and memory transfer
(`46_timer_index_memory.md` R165 to R173). -/

namespace Sys2Proof.Machine

/-- R166. -/
def execLdVxDt (x : RegIdx) (s : State) : Host.Outcome State Fault Refusal :=
  .next (s.writeReg x s.DT)

/-- R167. -/
def execLdDtVx (x : RegIdx) (s : State) : Host.Outcome State Fault Refusal :=
  .next (s.setDT (s.reg x))

/-- R168. -/
def execLdStVx (x : RegIdx) (s : State) : Host.Outcome State Fault Refusal :=
  .next (s.setST (s.reg x))

/-- R169: modulo 65536, VF not written (decision D30; DESIGN CHOICE, log entry 20). -/
def execAddIVx (x : RegIdx) (s : State) : Host.Outcome State Fault Refusal :=
  .next (s.setI (s.I + zextByte (s.reg x)))

/-- R170: memory is not read. -/
def execLdFVx (x : RegIdx) (s : State) : Host.Outcome State Fault Refusal :=
  .next (s.setI (glyphAddress (s.reg x)))

/-- R171: three digits, or nothing at all when one of the three addresses is outside `mem`. -/
def execLdBVx (x : RegIdx) (s : State) : Host.Outcome State Fault Refusal :=
  .next (match s.spanFault (s.ea 2) with
    | some f => s.raise f
    | none => State.pokeMany (s.ea 0) (bcdDigits (s.reg x)) s)

/-- `I <- (I + X + 1) mod 65536` (R172, R173). -/
def State.advanceI (s : State) (x : RegIdx) : State := s.setI (s.I + BitVec.ofNat 16 (x.toNat + 1))

/-- R172: V0 to VX, V0 at the lowest address; X is the index, not the value of Vx. -/
def execLdMemVx (x : RegIdx) (s : State) : Host.Outcome State Fault Refusal :=
  .next (match s.spanFault (s.ea x.toNat) with
    | some f => s.raise f
    | none => (State.pokeMany (s.ea 0) (s.regsBelow (x.toNat + 1)) s).advanceI x)

/-- R173. -/
def execLdVxMem (x : RegIdx) (s : State) : Host.Outcome State Fault Refusal :=
  .next (match s.spanFault (s.ea x.toNat) with
    | some f => s.raise f
    | none => (State.writeRegsFrom 0 (s.peekMany (s.ea 0) (x.toNat + 1)) s).advanceI x)

end Sys2Proof.Machine
end

