-- ==== Sys2Proof/Syntax.lean ====
section
/-! DEFINITION. The instructions: one constructor for each of the 35 rows of
`spec/opcode_table.json` (`30_encoding.md` R75). Operand fields keep the widths of R71. -/

namespace Sys2Proof

/-- The instruction set. `UNKNOWN` (R78) is no instruction of R75 and is not here: the decoder
rejects it by name and the step gives it its meaning (`Machine.execUnknown`). -/
inductive Instr where
  /-- 00E0 `CLS` -/
  | cls
  /-- 00EE `RET` -/
  | ret
  /-- 0NNN `SYS NNN`, NNN neither 0E0 nor 0EE -/
  | sys (nnn : Imm12)
  /-- 1NNN `JP NNN` -/
  | jp (nnn : Imm12)
  /-- 2NNN `CALL NNN` -/
  | call (nnn : Imm12)
  /-- 3XNN `SE Vx, NN` -/
  | seImm (x : RegIdx) (nn : Byte)
  /-- 4XNN `SNE Vx, NN` -/
  | sneImm (x : RegIdx) (nn : Byte)
  /-- 5XYN `SE Vx, Vy`; `n` is decoded and not examined (R76) -/
  | seReg (x y : RegIdx) (n : Nibble)
  /-- 6XNN `LD Vx, NN` -/
  | ldImm (x : RegIdx) (nn : Byte)
  /-- 7XNN `ADD Vx, NN` -/
  | addImm (x : RegIdx) (nn : Byte)
  /-- 8XY0 `LD Vx, Vy` -/
  | ldReg (x y : RegIdx)
  /-- 8XY1 `OR Vx, Vy` -/
  | orReg (x y : RegIdx)
  /-- 8XY2 `AND Vx, Vy` -/
  | andReg (x y : RegIdx)
  /-- 8XY3 `XOR Vx, Vy` -/
  | xorReg (x y : RegIdx)
  /-- 8XY4 `ADD Vx, Vy` -/
  | addReg (x y : RegIdx)
  /-- 8XY5 `SUB Vx, Vy` -/
  | subReg (x y : RegIdx)
  /-- 8XY6 `SHR Vx, Vy` -/
  | shrReg (x y : RegIdx)
  /-- 8XY7 `SUBN Vx, Vy` -/
  | subnReg (x y : RegIdx)
  /-- 8XYE `SHL Vx, Vy` -/
  | shlReg (x y : RegIdx)
  /-- 9XYN `SNE Vx, Vy`; `n` is decoded and not examined (R76) -/
  | sneReg (x y : RegIdx) (n : Nibble)
  /-- ANNN `LD I, NNN` -/
  | ldI (nnn : Imm12)
  /-- BNNN `JP V0, NNN` -/
  | jpV0 (nnn : Imm12)
  /-- CXNN `RND Vx, NN` -/
  | rnd (x : RegIdx) (nn : Byte)
  /-- DXYN `DRW Vx, Vy, N` -/
  | drw (x y : RegIdx) (n : Nibble)
  /-- EX9E `SKP Vx` -/
  | skp (x : RegIdx)
  /-- EXA1 `SKNP Vx` -/
  | sknp (x : RegIdx)
  /-- FX07 `LD Vx, DT` -/
  | ldVxDt (x : RegIdx)
  /-- FX0A `LD Vx, K` -/
  | ldVxK (x : RegIdx)
  /-- FX15 `LD DT, Vx` -/
  | ldDtVx (x : RegIdx)
  /-- FX18 `LD ST, Vx` -/
  | ldStVx (x : RegIdx)
  /-- FX1E `ADD I, Vx` -/
  | addIVx (x : RegIdx)
  /-- FX29 `LD F, Vx` -/
  | ldFVx (x : RegIdx)
  /-- FX33 `LD B, Vx` -/
  | ldBVx (x : RegIdx)
  /-- FX55 `LD [I], Vx` -/
  | ldMemVx (x : RegIdx)
  /-- FX65 `LD Vx, [I]` -/
  | ldVxMem (x : RegIdx)
deriving DecidableEq, Repr

end Sys2Proof
end

