-- ==== Sys2Proof/WellFormed.lean ====
section
/-! DEFINITION. Which instruction terms stand for an instruction of `30_encoding.md` R75. The field
widths are carried by the types; the one side condition of the table is row 3's. -/

namespace Sys2Proof

/-- Row 3 of R75: `SYS NNN` has NNN ≠ 0E0 and NNN ≠ 0EE, since those words are `CLS` and `RET`
(R77). Every other term is well formed. -/
def Instr.wellFormed : Instr → Bool
  | .sys nnn => nnn != 0x0E0#12 && nnn != 0x0EE#12
  | _ => true

/-- R76: the canonical encodings of families 5 and 9, the only ones an assembler emits, have
N = 0. The other ones are well formed all the same and execute alike. -/
def Instr.canonical : Instr → Bool
  | .seReg _ _ n => n == 0#4
  | .sneReg _ _ n => n == 0#4
  | i => i.wellFormed

end Sys2Proof
end

