-- ==== Sys2Proof/Decode.lean ====
section
/-! DEFINITION. Fields, the decoder, the encoder and the opcode map of `30_encoding.md`
(R70 to R79), all over the 16-bit instruction word `op`. -/

namespace Sys2Proof

/-! ### Fields (R71) -/

/-- `F`, the instruction family: `op[15:12]`. -/
def fieldF (op : Word) : Nibble := op.extractLsb' 12 4

/-- `X`: `op[11:8]`. -/
def fieldX (op : Word) : RegIdx := op.extractLsb' 8 4

/-- `Y`: `op[7:4]`. -/
def fieldY (op : Word) : RegIdx := op.extractLsb' 4 4

/-- `N`: `op[3:0]`. -/
def fieldN (op : Word) : Nibble := op.extractLsb' 0 4

/-- `NN`: `op[7:0]`. -/
def fieldNN (op : Word) : Byte := op.extractLsb' 0 8

/-- `NNN`: `op[11:0]`. -/
def fieldNNN (op : Word) : Imm12 := op.extractLsb' 0 12

/-- R54: the byte at the lower address is bits 15..8 of the instruction word. -/
def wordOfBytes (hi lo : Byte) : Word := hi ++ lo

/-- The byte of `op` that lies at the lower address (R54). -/
def highByte (op : Word) : Byte := op.extractLsb' 8 8

/-- The byte of `op` that lies at the higher address (R54). -/
def lowByte (op : Word) : Byte := op.extractLsb' 0 8

/-! ### The decoder (R74) -/

/-- Why bytes are no instruction of R75. The three `unknown` reasons are the three rows of R78;
each carries the word. -/
inductive Reject where
  /-- Family 8 with N in 8, 9, A, B, C, D, F. -/
  | unknownFamily8 (op : Word)
  /-- Family E with NN neither 9E nor A1. -/
  | unknownFamilyE (op : Word)
  /-- Family F with NN none of 07, 0A, 15, 18, 1E, 29, 33, 55, 65. -/
  | unknownFamilyF (op : Word)
  /-- Fewer than the two bytes every instruction has (R70). -/
  | truncated
deriving DecidableEq, Repr

/-- Family 0 compares the whole of NNN (R77). -/
def decodeFamily0 (op : Word) : Except Reject Instr :=
  if fieldNNN op = 0x0E0#12 then .ok .cls
  else if fieldNNN op = 0x0EE#12 then .ok .ret
  else .ok (.sys (fieldNNN op))

/-- Family 8 dispatches on N (R74). -/
def decodeFamily8 (op : Word) : Except Reject Instr :=
  match (fieldN op).toNat with
  | 0x0 => .ok (.ldReg (fieldX op) (fieldY op))
  | 0x1 => .ok (.orReg (fieldX op) (fieldY op))
  | 0x2 => .ok (.andReg (fieldX op) (fieldY op))
  | 0x3 => .ok (.xorReg (fieldX op) (fieldY op))
  | 0x4 => .ok (.addReg (fieldX op) (fieldY op))
  | 0x5 => .ok (.subReg (fieldX op) (fieldY op))
  | 0x6 => .ok (.shrReg (fieldX op) (fieldY op))
  | 0x7 => .ok (.subnReg (fieldX op) (fieldY op))
  | 0xE => .ok (.shlReg (fieldX op) (fieldY op))
  | _ => .error (.unknownFamily8 op)

/-- Family E dispatches on NN (R74). -/
def decodeFamilyE (op : Word) : Except Reject Instr :=
  if fieldNN op = 0x9E#8 then .ok (.skp (fieldX op))
  else if fieldNN op = 0xA1#8 then .ok (.sknp (fieldX op))
  else .error (.unknownFamilyE op)

/-- Family F dispatches on NN (R74). -/
def decodeFamilyF (op : Word) : Except Reject Instr :=
  if fieldNN op = 0x07#8 then .ok (.ldVxDt (fieldX op))
  else if fieldNN op = 0x0A#8 then .ok (.ldVxK (fieldX op))
  else if fieldNN op = 0x15#8 then .ok (.ldDtVx (fieldX op))
  else if fieldNN op = 0x18#8 then .ok (.ldStVx (fieldX op))
  else if fieldNN op = 0x1E#8 then .ok (.addIVx (fieldX op))
  else if fieldNN op = 0x29#8 then .ok (.ldFVx (fieldX op))
  else if fieldNN op = 0x33#8 then .ok (.ldBVx (fieldX op))
  else if fieldNN op = 0x55#8 then .ok (.ldMemVx (fieldX op))
  else if fieldNN op = 0x65#8 then .ok (.ldVxMem (fieldX op))
  else .error (.unknownFamilyF op)

/-- `Decode(op)` of R74: every word gets exactly one outcome. -/
def decode (op : Word) : Except Reject Instr :=
  match (fieldF op).toNat with
  | 0x0 => decodeFamily0 op
  | 0x1 => .ok (.jp (fieldNNN op))
  | 0x2 => .ok (.call (fieldNNN op))
  | 0x3 => .ok (.seImm (fieldX op) (fieldNN op))
  | 0x4 => .ok (.sneImm (fieldX op) (fieldNN op))
  | 0x5 => .ok (.seReg (fieldX op) (fieldY op) (fieldN op))
  | 0x6 => .ok (.ldImm (fieldX op) (fieldNN op))
  | 0x7 => .ok (.addImm (fieldX op) (fieldNN op))
  | 0x8 => decodeFamily8 op
  | 0x9 => .ok (.sneReg (fieldX op) (fieldY op) (fieldN op))
  | 0xA => .ok (.ldI (fieldNNN op))
  | 0xB => .ok (.jpV0 (fieldNNN op))
  | 0xC => .ok (.rnd (fieldX op) (fieldNN op))
  | 0xD => .ok (.drw (fieldX op) (fieldY op) (fieldN op))
  | 0xE => decodeFamilyE op
  | _ => decodeFamilyF op

/-- The decoder on bytes: two bytes, most significant first (R54, R70), and the bytes after them. -/
def decodeBytes : List Byte → Except Reject (Instr × List Byte)
  | hi :: lo :: rest =>
    match decode (wordOfBytes hi lo) with
    | .ok i => .ok (i, rest)
    | .error e => .error e
  | _ => .error .truncated

/-- The decoder's answer, or none where it rejects. -/
def instrOfWord (op : Word) : Option Instr :=
  match decodeBytes [highByte op, lowByte op] with
  | .ok (i, _) => some i
  | .error _ => none

/-- The word the opcode table numbers `w` with `nbits` bits: bits at and above `nbits` are 0. The
table's one word has 16 bits, bit 0 the least significant. -/
def tableWord (nbits w : Nat) : Word := BitVec.ofNat 16 (w % 2 ^ nbits)

/-- The instruction the decoder reads from the table's word, laid out in memory order. -/
def decodeTableWord (nbits w : Nat) : Option Instr := instrOfWord (tableWord nbits w)

/-! ### The encoder (R72, R75) -/

/-- Format `NNN`. -/
def formatNNN (f : Nibble) (nnn : Imm12) : Word := f ++ nnn

/-- Format `XNN`. -/
def formatXNN (f : Nibble) (x : RegIdx) (nn : Byte) : Word := f ++ (x ++ nn)

/-- Format `XYN`. -/
def formatXYN (f : Nibble) (x y : RegIdx) (n : Nibble) : Word := f ++ (x ++ (y ++ n))

/-- The instruction word of each row of R75. -/
def encode : Instr → Word
  | .cls => 0x00E0#16
  | .ret => 0x00EE#16
  | .sys nnn => formatNNN 0x0#4 nnn
  | .jp nnn => formatNNN 0x1#4 nnn
  | .call nnn => formatNNN 0x2#4 nnn
  | .seImm x nn => formatXNN 0x3#4 x nn
  | .sneImm x nn => formatXNN 0x4#4 x nn
  | .seReg x y n => formatXYN 0x5#4 x y n
  | .ldImm x nn => formatXNN 0x6#4 x nn
  | .addImm x nn => formatXNN 0x7#4 x nn
  | .ldReg x y => formatXYN 0x8#4 x y 0x0#4
  | .orReg x y => formatXYN 0x8#4 x y 0x1#4
  | .andReg x y => formatXYN 0x8#4 x y 0x2#4
  | .xorReg x y => formatXYN 0x8#4 x y 0x3#4
  | .addReg x y => formatXYN 0x8#4 x y 0x4#4
  | .subReg x y => formatXYN 0x8#4 x y 0x5#4
  | .shrReg x y => formatXYN 0x8#4 x y 0x6#4
  | .subnReg x y => formatXYN 0x8#4 x y 0x7#4
  | .shlReg x y => formatXYN 0x8#4 x y 0xE#4
  | .sneReg x y n => formatXYN 0x9#4 x y n
  | .ldI nnn => formatNNN 0xA#4 nnn
  | .jpV0 nnn => formatNNN 0xB#4 nnn
  | .rnd x nn => formatXNN 0xC#4 x nn
  | .drw x y n => formatXYN 0xD#4 x y n
  | .skp x => formatXNN 0xE#4 x 0x9E#8
  | .sknp x => formatXNN 0xE#4 x 0xA1#8
  | .ldVxDt x => formatXNN 0xF#4 x 0x07#8
  | .ldVxK x => formatXNN 0xF#4 x 0x0A#8
  | .ldDtVx x => formatXNN 0xF#4 x 0x15#8
  | .ldStVx x => formatXNN 0xF#4 x 0x18#8
  | .addIVx x => formatXNN 0xF#4 x 0x1E#8
  | .ldFVx x => formatXNN 0xF#4 x 0x29#8
  | .ldBVx x => formatXNN 0xF#4 x 0x33#8
  | .ldMemVx x => formatXNN 0xF#4 x 0x55#8
  | .ldVxMem x => formatXNN 0xF#4 x 0x65#8

/-! ### The opcode map (R75), independent of the decoder -/

/-- One row of R75: a word `op` selects it when `op & mask = pattern`. -/
structure OpcodeRow where
  mask : Word
  pattern : Word
deriving DecidableEq, Repr

/-- `op & mask = match` (R75). -/
def OpcodeRow.selects (row : OpcodeRow) (op : Word) : Bool := op &&& row.mask == row.pattern

/-- Rows 1 to 3 and 4 to 10 of R75. -/
def opcodeRowsLow : List OpcodeRow :=
  [⟨0xFFFF#16, 0x00E0#16⟩, ⟨0xFFFF#16, 0x00EE#16⟩, ⟨0xF000#16, 0x0000#16⟩,
   ⟨0xF000#16, 0x1000#16⟩, ⟨0xF000#16, 0x2000#16⟩, ⟨0xF000#16, 0x3000#16⟩,
   ⟨0xF000#16, 0x4000#16⟩, ⟨0xF000#16, 0x5000#16⟩, ⟨0xF000#16, 0x6000#16⟩,
   ⟨0xF000#16, 0x7000#16⟩]

/-- Rows 11 to 19 of R75. -/
def opcodeRowsFamily8 : List OpcodeRow :=
  [⟨0xF00F#16, 0x8000#16⟩, ⟨0xF00F#16, 0x8001#16⟩, ⟨0xF00F#16, 0x8002#16⟩,
   ⟨0xF00F#16, 0x8003#16⟩, ⟨0xF00F#16, 0x8004#16⟩, ⟨0xF00F#16, 0x8005#16⟩,
   ⟨0xF00F#16, 0x8006#16⟩, ⟨0xF00F#16, 0x8007#16⟩, ⟨0xF00F#16, 0x800E#16⟩]

/-- Rows 20 to 26 of R75. -/
def opcodeRowsMiddle : List OpcodeRow :=
  [⟨0xF000#16, 0x9000#16⟩, ⟨0xF000#16, 0xA000#16⟩, ⟨0xF000#16, 0xB000#16⟩,
   ⟨0xF000#16, 0xC000#16⟩, ⟨0xF000#16, 0xD000#16⟩, ⟨0xF0FF#16, 0xE09E#16⟩,
   ⟨0xF0FF#16, 0xE0A1#16⟩]

/-- Rows 27 to 35 of R75. -/
def opcodeRowsFamilyF : List OpcodeRow :=
  [⟨0xF0FF#16, 0xF007#16⟩, ⟨0xF0FF#16, 0xF00A#16⟩, ⟨0xF0FF#16, 0xF015#16⟩,
   ⟨0xF0FF#16, 0xF018#16⟩, ⟨0xF0FF#16, 0xF01E#16⟩, ⟨0xF0FF#16, 0xF029#16⟩,
   ⟨0xF0FF#16, 0xF033#16⟩, ⟨0xF0FF#16, 0xF055#16⟩, ⟨0xF0FF#16, 0xF065#16⟩]

/-- The 35 rows of R75 in its order. -/
def opcodeMap : List OpcodeRow :=
  opcodeRowsLow ++ opcodeRowsFamily8 ++ opcodeRowsMiddle ++ opcodeRowsFamilyF

/-- The number (from 0) of an instruction's row in `opcodeMap`. -/
def Instr.rowNumber : Instr → Nat
  | .cls => 0 | .ret => 1 | .sys _ => 2 | .jp _ => 3 | .call _ => 4
  | .seImm _ _ => 5 | .sneImm _ _ => 6 | .seReg _ _ _ => 7 | .ldImm _ _ => 8
  | .addImm _ _ => 9 | .ldReg _ _ => 10 | .orReg _ _ => 11 | .andReg _ _ => 12
  | .xorReg _ _ => 13 | .addReg _ _ => 14 | .subReg _ _ => 15 | .shrReg _ _ => 16
  | .subnReg _ _ => 17 | .shlReg _ _ => 18 | .sneReg _ _ _ => 19 | .ldI _ => 20
  | .jpV0 _ => 21 | .rnd _ _ => 22 | .drw _ _ _ => 23 | .skp _ => 24 | .sknp _ => 25
  | .ldVxDt _ => 26 | .ldVxK _ => 27 | .ldDtVx _ => 28 | .ldStVx _ => 29
  | .addIVx _ => 30 | .ldFVx _ => 31 | .ldBVx _ => 32 | .ldMemVx _ => 33
  | .ldVxMem _ => 34

/-- An instruction's row of R75. -/
def Instr.row (i : Instr) : OpcodeRow := opcodeMap.getD i.rowNumber ⟨0#16, 0#16⟩

/-! ### The assembler's spelling (R81, decision D22; PRESUMED, log entry 28) -/

/-- One hexadecimal digit. -/
def hexDigit (n : Nat) : String := ("0123456789ABCDEF".toList.getD (n % 16) '0').toString

/-- A register operand, `V0` to `VF`. -/
def asmReg (x : RegIdx) : String := "V" ++ hexDigit x.toNat

/-- A 4-bit number operand. -/
def asmNibble (n : Nibble) : String := "0x" ++ hexDigit n.toNat

/-- An 8-bit number operand. -/
def asmByte (nn : Byte) : String := "0x" ++ hexDigit (nn.toNat / 16) ++ hexDigit nn.toNat

/-- A 12-bit number operand. -/
def asmAddress (nnn : Imm12) : String :=
  "0x" ++ hexDigit (nnn.toNat / 256) ++ hexDigit (nnn.toNat / 16) ++ hexDigit nnn.toNat

/-- A mnemonic with two operands. -/
def asm2 (mnemonic a b : String) : String := mnemonic ++ " " ++ a ++ ", " ++ b

/-- The line an assembler takes for an instruction (R75's mnemonic column, R81). N of 5XYN and 9XYN
has no spelling: the assembler emits N = 0 (R76). -/
def Instr.assembly : Instr → String
  | .cls => "CLS"
  | .ret => "RET"
  | .sys nnn => "SYS " ++ asmAddress nnn
  | .jp nnn => "JP " ++ asmAddress nnn
  | .call nnn => "CALL " ++ asmAddress nnn
  | .seImm x nn => asm2 "SE" (asmReg x) (asmByte nn)
  | .sneImm x nn => asm2 "SNE" (asmReg x) (asmByte nn)
  | .seReg x y _ => asm2 "SE" (asmReg x) (asmReg y)
  | .ldImm x nn => asm2 "LD" (asmReg x) (asmByte nn)
  | .addImm x nn => asm2 "ADD" (asmReg x) (asmByte nn)
  | .ldReg x y => asm2 "LD" (asmReg x) (asmReg y)
  | .orReg x y => asm2 "OR" (asmReg x) (asmReg y)
  | .andReg x y => asm2 "AND" (asmReg x) (asmReg y)
  | .xorReg x y => asm2 "XOR" (asmReg x) (asmReg y)
  | .addReg x y => asm2 "ADD" (asmReg x) (asmReg y)
  | .subReg x y => asm2 "SUB" (asmReg x) (asmReg y)
  | .shrReg x y => asm2 "SHR" (asmReg x) (asmReg y)
  | .subnReg x y => asm2 "SUBN" (asmReg x) (asmReg y)
  | .shlReg x y => asm2 "SHL" (asmReg x) (asmReg y)
  | .sneReg x y _ => asm2 "SNE" (asmReg x) (asmReg y)
  | .ldI nnn => asm2 "LD" "I" (asmAddress nnn)
  | .jpV0 nnn => asm2 "JP" "V0" (asmAddress nnn)
  | .rnd x nn => asm2 "RND" (asmReg x) (asmByte nn)
  | .drw x y n => asm2 "DRW" (asmReg x) (asmReg y) ++ ", " ++ asmNibble n
  | .skp x => "SKP " ++ asmReg x
  | .sknp x => "SKNP " ++ asmReg x
  | .ldVxDt x => asm2 "LD" (asmReg x) "DT"
  | .ldVxK x => asm2 "LD" (asmReg x) "K"
  | .ldDtVx x => asm2 "LD" "DT" (asmReg x)
  | .ldStVx x => asm2 "LD" "ST" (asmReg x)
  | .addIVx x => asm2 "ADD" "I" (asmReg x)
  | .ldFVx x => asm2 "LD" "F" (asmReg x)
  | .ldBVx x => asm2 "LD" "B" (asmReg x)
  | .ldMemVx x => asm2 "LD" "[I]" (asmReg x)
  | .ldVxMem x => asm2 "LD" (asmReg x) "[I]"

end Sys2Proof
end

