-- ==== Sys2Proof/Machine/Fetch.lean ====
section
/-! DEFINITION. What a step does before it dispatches (`40_step_cycle.md` R90 to R92, R96), and
where an instruction word is laid down for the next fetch. -/

namespace Sys2Proof.Machine

/-- R91: the two bytes at `pc` and `pc + 1`, the addresses not truncated, as one word (R54). -/
def State.fetch (s : State) : Except Fault Word :=
  match s.memRead s.pc.toNat with
  | .error f => .error f
  | .ok hi =>
    match s.memRead (s.pc.toNat + 1) with
    | .error f => .error f
    | .ok lo => .ok (wordOfBytes hi lo)

/-- What the front of a step gives. -/
inductive Front where
  /-- The step ends here with this state: the latch was set, or the fetch faulted. -/
  | ends (s : State)
  /-- An instruction, and the advanced state it runs in. -/
  | runs (i : Instr) (s : State)
  /-- An unknown word, and the advanced state it is passed over in. -/
  | passes (op : Word) (s : State)
deriving DecidableEq, Repr

/-- R90 up to `Execute`: a latched core does nothing (R96); a fetch fault is latched and `pc` is not
advanced (R91, decision D10; DESIGN CHOICE, log entry 16); otherwise `pc` is advanced and the word decoded (R92, R74). -/
def State.front (s : State) : Front :=
  match s.fault with
  | some _ => .ends s
  | none =>
    match s.fetch with
    | .error f => .ends (s.raise f)
    | .ok op =>
      match decode op with
      | .ok i => .runs i s.advance
      | .error _ => .passes op s.advance

/-- Where an instruction word can be laid down for the next fetch: `pc`, or the reset entry point
when `pc` is outside `mem`. -/
def State.entry (s : State) : Word :=
  if s.pc.toNat + 1 < s.cfg.memSize then s.pc else 0x0200#16

/-- Lay the word `op` down where the next step fetches, most significant byte first (R54), and let
that step fetch: the latch clear, `pc` inside `mem`. DESIGN CHOICE, log
entry 8. -/
def State.placeWord (s : State) (op : Word) : State :=
  let t := (s.setPc s.entry)
  { State.pokeMany t.pc.toNat [highByte op, lowByte op] t with fault := none }

end Sys2Proof.Machine
end

