-- ==== Sys2Proof/Machine/Step.lean ====
section
/-! DEFINITION. The `step` event (`40_step_cycle.md` R90): exactly one instruction. -/

namespace Sys2Proof.Machine

/-- R90. -/
def step (s : State) : Host.Outcome State Fault Refusal :=
  match s.front with
  | .ends t => .next t
  | .runs i t => exec i t
  | .passes op t => execUnknown op t

/-- `s` with the table's word laid down where `step` fetches its next instruction. -/
def State.withFetchWord (s : State) (nbits w : Nat) : State := s.placeWord (tableWord nbits w)

end Sys2Proof.Machine
end

