-- ==== Sys2Proof/Machine/Events.lean ====
section
/-! DEFINITION. The four events of `00_scope.md` R5 as one transition system: `reset(rom)`
(`70_reset_and_hazards.md` R210 to R212), `step`, `tick60` and `key_release(k)`
(`60_exceptions.md` R192, R193). Events are atomic and taken one at a time in any order the driver
chooses (R6): a run is a list of events (DESIGN CHOICE, log entry 10). -/

namespace Sys2Proof.Machine

/-- The events (R5). -/
inductive Event where
  | reset (rom : List Byte)
  | step
  | tick60
  | keyRelease (k : Key)
deriving DecidableEq, Repr

/-- One less, stopping at 0 (R192). -/
def countDown (b : Byte) : Byte := if b = 0x00#8 then b else b - 0x01#8

/-- R192; a faulted core ignores it (R186). One event for both timers (decision D32; DESIGN CHOICE,
log entry 21). -/
def State.tick60 (s : State) : State :=
  match s.fault with
  | some _ => s
  | none => { s with DT := countDown s.DT, ST := countDown s.ST }

/-- R193; a faulted core ignores it (R186). The first release after arming wins (decision D17;
DESIGN CHOICE, log entry 15). -/
def State.keyRelease (s : State) (k : Key) : State :=
  match s.fault, s.waitKey with
  | none, .armed => s.setWaitKey (.captured k)
  | _, _ => s

/-- The largest ROM `reset` takes (R212). -/
def romLimit (cfg : Config) : Nat := cfg.memSize - romBase

/-- R210: the whole state rebuilt, font and ROM in memory. The configuration is the core's and the
environment's side is not the core's, so both are kept. -/
def State.boot (s : State) (rom : List Byte) : State :=
  State.pokeMany romBase rom { State.resetFor s.cfg with env := s.env }

/-- The `reset(rom)` event: refused when the ROM is too long (R203). It is the only way out of a
fault (R185; DESIGN CHOICE, log entry 25). -/
def State.resetEvent (s : State) (rom : List Byte) : Host.Outcome State Fault Refusal :=
  if romLimit s.cfg < rom.length then .refused (.oversizedRom rom.length) else .next (s.boot rom)

/-- One event (R5). -/
def applyEvent (e : Event) (s : State) : Host.Outcome State Fault Refusal :=
  match e with
  | .reset rom => s.resetEvent rom
  | .step => Sys2Proof.Machine.step s
  | .tick60 => .next s.tick60
  | .keyRelease k => .next (s.keyRelease k)

/-- A run: the events one after another (R6). -/
def runEvents : List Event → State → Host.Outcome State Fault Refusal
  | [], s => .next s
  | e :: es, s =>
    match applyEvent e s with
    | .next t => runEvents es t
    | .fault f => .fault f
    | .refused r => .refused r

/-- The result of a `step` (R36). -/
inductive StepResult where
  | ok
  | fault (f : Fault)
deriving DecidableEq, Repr

/-- What the driver reads in the state a step leaves: `Ok`, or the fault just latched or latched
before (R90, R96). -/
def State.result (s : State) : StepResult :=
  match s.fault with
  | none => .ok
  | some f => .fault f

/-- The result of a `step` from `s` (R36, R90). -/
def stepResult (s : State) : Option StepResult :=
  match Sys2Proof.Machine.step s with
  | .next t => some t.result
  | _ => none

end Sys2Proof.Machine
end

