-- ==== Sys2Proof/Safety.lean ====
section
/-! DEFINITION. The terms claims are stated in: the invariant, a safe state, a finished program
(`40_step_cycle.md` R98), and the frame predicates. -/

namespace Sys2Proof

/-! ### Classes of instructions the whole-machine rules name -/

/-- The six skipping instructions (R113). -/
def Instr.skips : Instr → Bool
  | .seImm _ _ | .sneImm _ _ | .seReg _ _ _ | .sneReg _ _ _ | .skp _ | .sknp _ => true
  | _ => false

/-- The instructions that write VF as a side effect (R22). -/
def Instr.writesFlag : Instr → Bool
  | .orReg _ _ | .andReg _ _ | .xorReg _ _ | .addReg _ _ | .subReg _ _ | .subnReg _ _
  | .shrReg _ _ | .shlReg _ _ | .drw _ _ _ => true
  | _ => false

/-- The register an instruction names as its destination Vx, where it has one. -/
def Instr.destination : Instr → Option RegIdx
  | .ldImm x _ | .addImm x _ | .ldReg x _ | .orReg x _ | .andReg x _ | .xorReg x _
  | .addReg x _ | .subReg x _ | .shrReg x _ | .subnReg x _ | .shlReg x _ | .rnd x _
  | .ldVxDt x | .ldVxK x => some x
  | _ => none

/-- The instructions that ask the environment a question (R35). -/
def Instr.asks : Instr → Bool
  | .cls | .drw _ _ _ | .skp _ | .sknp _ | .rnd _ _ => true
  | _ => false

/-- The instructions that read or write a timer (R27, R28). -/
def Instr.usesTimer : Instr → Bool
  | .ldVxDt _ | .ldDtVx _ | .ldStVx _ => true
  | _ => false

end Sys2Proof

namespace Sys2Proof.Machine

/-- The grid has H rows of W pixels (R31). -/
abbrev gridShape (cfg : Config) (g : Grid) : Prop :=
  g.length = cfg.height ∧ ∀ row ∈ g, row.length = cfg.width

/-- The invariant of the machine: a legal configuration (R7), the memory in canonical form, a call
stack of `STACK_DEPTH` entries with at most that many in use (R25, R26), and a grid of H rows of W
pixels (R31). -/
abbrev State.Inv (s : State) : Prop :=
  s.cfg.Legal ∧ Memory.wf s.cfg s.mem ∧ s.stack.length = s.cfg.stackDepth ∧
    s.sp ≤ s.cfg.stackDepth ∧ gridShape s.cfg s.fb

/-- A state a claim about a program may accept (R185): no fault is latched. -/
abbrev State.Safe (s : State) : Prop := s.fault = none

/-- R98's convention: `pc` holds the address of a `1NNN` that jumps to itself. -/
abbrev State.Finished (s : State) : Prop :=
  s.fault = none ∧ ∃ nnn : Imm12, s.fetch = .ok (encode (.jp nnn)) ∧ zextImm nnn = s.pc

/-- The two bytes of the next instruction lie inside `mem` (R91). -/
abbrev State.Fetchable (s : State) : Prop := s.pc.toNat + 1 < s.cfg.memSize

/-! ### Frames: what is the same in two states -/

/-- Every byte of memory reads the same. -/
def SameMemory (s t : State) : Prop := ∀ a, t.peek a = s.peek a

/-- Every byte of memory outside the `n` bytes at `base` reads the same. -/
def SameMemoryOutside (base n : Nat) (s t : State) : Prop :=
  ∀ a, a < base ∨ base + n ≤ a → t.peek a = s.peek a

/-- Every general register but those listed is the same. -/
def SameRegsBut (xs : List RegIdx) (s t : State) : Prop := ∀ r, r ∉ xs → t.reg r = s.reg r

/-- The call stack is the same, stale entries included. -/
def SameCallStack (s t : State) : Prop := t.stack = s.stack ∧ t.sp = s.sp

/-- Both timers are the same. -/
def SameTimers (s t : State) : Prop := t.DT = s.DT ∧ t.ST = s.ST

/-- Configuration, call stack, timers, key-wait state and framebuffer are the same: what only
control transfer, timer writes, FX0A and the display instructions may change. -/
def SameDevices (s t : State) : Prop :=
  t.cfg = s.cfg ∧ SameCallStack s t ∧ SameTimers s t ∧ t.waitKey = s.waitKey ∧ t.fb = s.fb

/-- No fault was raised, no question asked and nothing put out. -/
def Quiet (s t : State) : Prop := t.fault = s.fault ∧ t.env = s.env

/-- Everything but the general registers and `pc` and `I` is the same, and nothing was raised,
asked or put out. -/
def SameOutsideRegisters (s t : State) : Prop := SameMemory s t ∧ SameDevices s t ∧ Quiet s t

/-- `Present()` was raised exactly once, with the grid of `t` shown; the latch follows its answer,
which is the environment's (R146, R35). -/
def PresentsOnce (s t : State) : Prop :=
  t.env = { s.env with
    presentAnswers := s.env.presentAnswers.tail
    asked := s.env.asked + 1
    outputs := .presented t.fb :: s.env.outputs } ∧
  t.fault = match s.env.presentAnswers.headD (Config.freePresent s.env.asked) with
    | .ok => s.fault
    | .fail => some (.displayFlushFailure (s.pc - 2#16))

/-- The sprite of `DRW Vx, Vy, N` has a 1 bit on the pixel (r, c): R149 read pixel by pixel, without
its loops. -/
def SpriteCovers (s : State) (x y : RegIdx) (n : Nibble) (r c : Nat) : Prop :=
  ∃ i j : Nat, i < n.toNat ∧ j < 8 ∧ r = (s.reg y).toNat % s.cfg.height + i ∧
    c = (s.reg x).toNat % s.cfg.width + j ∧
    (s.peek (s.I.toNat + i)).getLsbD (7 - j) = true

/-- The rows of `DRW Vx, Vy, N` that lie inside the grid (R149). -/
def visibleRows (s : State) (y : RegIdx) (n : Nibble) : Nat :=
  min n.toNat (s.cfg.height - (s.reg y).toNat % s.cfg.height)

/-- The fault an instruction raises, by R182 and with the information R181 says is recorded:
`s` is the state the instruction runs in. -/
def MayRaise (i : Instr) (s : State) : Fault → Prop
  | .memoryOutOfRange a =>
    ((∃ x y n, i = .drw x y n) ∨ (∃ x, i = .ldBVx x) ∨ (∃ x, i = .ldMemVx x) ∨
      ∃ x, i = .ldVxMem x) ∧ a = max s.I.toNat s.cfg.memSize
  | .stackUnderflow ia => i = .ret ∧ ia = s.pc - 2#16
  | .stackOverflow ia => (∃ nnn, i = .call nnn) ∧ ia = s.pc - 2#16
  | .displayFlushFailure ia => (i = .cls ∨ ∃ x y n, i = .drw x y n) ∧ ia = s.pc - 2#16
  | .keyIndexOutOfRange k =>
    ∃ x, (i = .skp x ∨ i = .sknp x) ∧ k = s.reg x ∧ 15 < (s.reg x).toNat

end Sys2Proof.Machine
end

