-- ==== Sys2Proof/Certificates/Slice0/Obligations.lean ====
section
/-! DEFINITION. The statements for the provers. In a statement about `exec`, `s` is the state the
instruction runs in: `pc` already holds `ia + 2` (`40_step_cycle.md` R92), so an unchanged `pc` is
the next instruction's address and `s.pc - 2` is `ia`. -/

open Sys2Proof Sys2Proof.Machine

/-! ### Encoding -/

/-- R75: decoding the encoding of any well-formed instruction gives it back, every operand at every
value. -/
def Obligations.DecodeOfEncodeIsTheInstruction : Prop :=
  ∀ i : Instr, i.wellFormed = true → decode (encode i) = .ok i

/-- R74, the other direction: a word that decodes is the encoding of what it decodes to, and that is
well formed. No bit of a word is dropped. -/
def Obligations.EncodeOfDecodeIsTheWord : Prop :=
  ∀ (op : Word) (i : Instr), decode op = .ok i → encode i = op ∧ i.wellFormed = true

/-- R75 against R74: the decoder's case analysis and the mask and match columns of the opcode map
agree on all 65536 words; where two rows match, the one with the larger mask wins. -/
def Obligations.DecoderAgreesWithOpcodeMap : Prop :=
  ∀ op : Word, match decode op with
    | .ok i => i.row ∈ opcodeMap ∧ i.row.selects op = true ∧
        ∀ row ∈ opcodeMap, row.selects op = true → row ≠ i.row →
          row.mask.toNat < i.row.mask.toNat
    | .error _ => ∀ row ∈ opcodeMap, row.selects op = false

/-- The table of R78 (the spec's decision D14): a word is rejected exactly in its three families,
under the name of its row. -/
def Obligations.UnknownWordsAreTheThreeRows : Prop :=
  ∀ (op : Word) (e : Reject), decode op = .error e ↔
    (fieldF op = 0x8#4 ∧ e = .unknownFamily8 op ∧
      fieldN op ∈ [0x8#4, 0x9#4, 0xA#4, 0xB#4, 0xC#4, 0xD#4, 0xF#4]) ∨
    (fieldF op = 0xE#4 ∧ e = .unknownFamilyE op ∧ fieldNN op ∉ [0x9E#8, 0xA1#8]) ∨
    (fieldF op = 0xF#4 ∧ e = .unknownFamilyF op ∧
      fieldNN op ∉ [0x07#8, 0x0A#8, 0x15#8, 0x18#8, 0x1E#8, 0x29#8, 0x33#8, 0x55#8, 0x65#8])

/-- Words written out from the bit strings of the opcode table decode to their instructions. -/
def Obligations.SpelledOutWordsDecode : Prop :=
  decode 0b0000000011100000#16 = .ok .cls ∧
  decode 0b0010001000001010#16 = .ok (.call 0x20A#12) ∧
  decode 0b0110101000010100#16 = .ok (.ldImm 0xA#4 0x14#8) ∧
  decode 0b1000000100101110#16 = .ok (.shlReg 0x1#4 0x2#4) ∧
  decode 0b1101000100100101#16 = .ok (.drw 0x1#4 0x2#4 0x5#4) ∧
  decode 0b1110010010011110#16 = .ok (.skp 0x4#4) ∧
  decode 0b1111001001100101#16 = .ok (.ldVxMem 0x2#4)

/-! ### Fetch and step -/

/-- R54: the byte at `pc` is bits 15..8 of the fetched word, the byte after it bits 7..0. -/
def Obligations.FetchIsMostSignificantByteFirst : Prop :=
  ∀ s : State, s.Fetchable → ∃ op, s.fetch = .ok op ∧
    op.extractLsb' 8 8 = s.peek s.pc.toNat ∧ op.extractLsb' 0 8 = s.peek (s.pc.toNat + 1)

/-- R92 and R93: a step at a state whose two bytes at `pc` decode is the decoded instruction run in
the state advanced by 2. -/
def Obligations.StepRunsTheDecodedInstruction : Prop :=
  ∀ (s : State) (i : Instr), s.fault = none → s.Fetchable →
    decode (s.peek s.pc.toNat ++ s.peek (s.pc.toNat + 1)) = .ok i →
    step s = exec i { s with pc := s.pc + 2#16 }

/-- R95 (the spec's decisions D14, D26): an unknown word is passed over with one diagnostic. -/
def Obligations.UnknownWordIsPassedOver : Prop :=
  ∀ (s : State) (e : Reject), s.fault = none → s.Fetchable →
    decode (s.peek s.pc.toNat ++ s.peek (s.pc.toNat + 1)) = .error e →
    step s = .next { s with
      pc := s.pc + 2#16
      env := { s.env with
        outputs := .diag .unknownOpcode s.pc (s.peek s.pc.toNat ++ s.peek (s.pc.toNat + 1)) ::
          s.env.outputs } }

/-- R91 (the spec's decisions D7, D10): a fetch outside `mem` latches the lowest offending address
and changes nothing else, `pc` included. -/
def Obligations.FetchOutsideMemoryLatches : Prop :=
  ∀ s : State, s.fault = none →
    (s.cfg.memSize ≤ s.pc.toNat →
      step s = .next { s with fault := some (.memoryOutOfRange s.pc.toNat) }) ∧
    (s.pc.toNat < s.cfg.memSize → s.cfg.memSize ≤ s.pc.toNat + 1 →
      step s = .next { s with fault := some (.memoryOutOfRange (s.pc.toNat + 1)) })

/-- R96, R186 (the spec's decision D8): while the latch is set a step changes nothing and returns
the latched fault, and `tick60` and `key_release` change nothing. -/
def Obligations.LatchedCoreIsInert : Prop :=
  ∀ (s : State) (f : Fault) (k : Key), s.fault = some f →
    step s = .next s ∧ stepResult s = some (.fault f) ∧ s.tick60 = s ∧ s.keyRelease k = s

/-- Every instruction and every step answers a next state: faults are taken, not stops (log entry
3). -/
def Obligations.NothingStopsTheMachine : Prop :=
  (∀ (i : Instr) (s : State), ∃ t, exec i s = .next t) ∧ ∀ s : State, ∃ t, step s = .next t

/-! ### SYS, control transfer, skips -/

/-- R94: `SYS` puts out one diagnostic and changes nothing of the core. -/
def Obligations.SysOnlyReports : Prop :=
  ∀ (nnn : Imm12) (s : State), exec (.sys nnn) s = .next { s with
    env := { s.env with
      outputs := .diag .nativeCall (s.pc - 2#16) (0x0#4 ++ nnn) :: s.env.outputs } }

/-- R106, R112: the jump target is NNN, or NNN plus V0 (whatever NNN is), not reduced. -/
def Obligations.JumpsLoadTheTarget : Prop :=
  ∀ (nnn : Imm12) (s : State),
    ∀ p ∈ [(Instr.jp nnn, nnn.toNat), (Instr.jpV0 nnn, nnn.toNat + (s.reg 0#4).toNat)],
      ∃ t, exec p.1 s = .next t ∧ t.pc.toNat = p.2 ∧ SameRegsBut [] s t ∧ t.I = s.I ∧
        SameOutsideRegisters s t

/-- R107, with room on the call stack: the advanced `pc` is pushed and NNN loaded (the entry
convention is the spec's decision D20). -/
def Obligations.CallPushesAndJumps : Prop :=
  ∀ (nnn : Imm12) (s : State), s.stack.length = s.cfg.stackDepth → s.sp < s.cfg.stackDepth →
    ∃ t, exec (.call nnn) s = .next t ∧ t.pc.toNat = nnn.toNat ∧ t.sp = s.sp + 1 ∧
      t.stackAt s.sp = s.pc ∧ (∀ j, j ≠ s.sp → t.stackAt j = s.stackAt j) ∧
      t.stack.length = s.stack.length ∧ SameRegsBut [] s t ∧ t.I = s.I ∧ SameMemory s t ∧
      t.cfg = s.cfg ∧ SameTimers s t ∧ t.waitKey = s.waitKey ∧ t.fb = s.fb ∧ Quiet s t

/-- R105, with an entry in use: the entry is popped into `pc` and keeps its value. -/
def Obligations.ReturnPopsIntoPc : Prop :=
  ∀ s : State, 0 < s.sp → ∃ t, exec .ret s = .next t ∧ t.pc = s.stackAt (s.sp - 1) ∧
    t.sp + 1 = s.sp ∧ t.stack = s.stack ∧ SameRegsBut [] s t ∧ t.I = s.I ∧ SameMemory s t ∧
    t.cfg = s.cfg ∧ SameTimers s t ∧ t.waitKey = s.waitKey ∧ t.fb = s.fb ∧ Quiet s t

/-- R105, R107, R188 (the latch is the spec's decision D8): a return with no entry in use and a call
with all in use latch their fault with `ia` and change nothing else. -/
def Obligations.StackFaultsChangeNothingElse : Prop :=
  ∀ s : State,
    (s.sp = 0 → exec .ret s =
      .next { s with fault := some (.stackUnderflow (s.pc - 2#16)) }) ∧
    ∀ nnn : Imm12, s.sp = s.cfg.stackDepth →
      exec (.call nnn) s = .next { s with fault := some (.stackOverflow (s.pc - 2#16)) }

/-- R108, R109 with the skip primitive of R113. That `pc` wraps at its 16-bit width is the spec's
derivation (R23) and decision D11 (log entry 19). -/
def Obligations.ImmediateSkips : Prop :=
  ∀ (x : RegIdx) (nn : Byte) (s : State),
    (∃ t, exec (.seImm x nn) s = .next t ∧
      t.pc.toNat = (if s.reg x = nn then (s.pc.toNat + 2) % 65536 else s.pc.toNat) ∧
      SameRegsBut [] s t ∧ t.I = s.I ∧ SameOutsideRegisters s t) ∧
    ∃ t, exec (.sneImm x nn) s = .next t ∧
      t.pc.toNat = (if s.reg x = nn then s.pc.toNat else (s.pc.toNat + 2) % 65536) ∧
      SameRegsBut [] s t ∧ t.I = s.I ∧ SameOutsideRegisters s t

/-- R110, R111, for every N (that N is not examined is the spec's decision D13, log entry 13; the
16-bit wrap of `pc` is D11, log entry 19). -/
def Obligations.RegisterSkipsWhateverN : Prop :=
  ∀ (x y : RegIdx) (n : Nibble) (s : State),
    (∃ t, exec (.seReg x y n) s = .next t ∧
      t.pc.toNat = (if s.reg x = s.reg y then (s.pc.toNat + 2) % 65536 else s.pc.toNat) ∧
      SameRegsBut [] s t ∧ t.I = s.I ∧ SameOutsideRegisters s t) ∧
    ∃ t, exec (.sneReg x y n) s = .next t ∧
      t.pc.toNat = (if s.reg x = s.reg y then s.pc.toNat else (s.pc.toNat + 2) % 65536) ∧
      SameRegsBut [] s t ∧ t.I = s.I ∧ SameOutsideRegisters s t

/-! ### Immediates -/

/-- R120, R131: the immediate or Vy is copied to Vx, with no flag. -/
def Obligations.LoadsCopyIntoVx : Prop :=
  ∀ (x y : RegIdx) (nn : Byte) (s : State),
    ∀ p ∈ [(Instr.ldImm x nn, nn), (Instr.ldReg x y, s.reg y)],
      ∃ t, exec p.1 s = .next t ∧ t.reg x = p.2 ∧ SameRegsBut [x] s t ∧ t.pc = s.pc ∧
        t.I = s.I ∧ SameOutsideRegisters s t

/-- R121: modulo 256, and VF is written only as the destination. -/
def Obligations.AddImmediateWrapsWithoutFlag : Prop :=
  ∀ (x : RegIdx) (nn : Byte) (s : State), ∃ t, exec (.addImm x nn) s = .next t ∧
    (t.reg x).toNat = ((s.reg x).toNat + nn.toNat) % 256 ∧ SameRegsBut [x] s t ∧ t.pc = s.pc ∧
    t.I = s.I ∧ SameOutsideRegisters s t

/-- R123: one question to the environment, and only bits of NN can be set. The answer is free (the
spec's decision D18; log entries 4 and 5): the statement holds whatever it is. -/
def Obligations.RandomIsMaskedByNN : Prop :=
  ∀ (x : RegIdx) (nn : Byte) (s : State), ∃ t, exec (.rnd x nn) s = .next t ∧
    t.reg x = s.env.rndAnswers.headD (Config.freeRandomByte s.env.asked) &&& nn ∧
    (∀ j, nn.getLsbD j = false → (t.reg x).getLsbD j = false) ∧
    t.env = { s.env with rndAnswers := s.env.rndAnswers.tail, asked := s.env.asked + 1 } ∧
    SameRegsBut [x] s t ∧ t.pc = s.pc ∧ t.I = s.I ∧ SameMemory s t ∧ SameDevices s t ∧
    t.fault = s.fault

/-! ### Register-to-register arithmetic -/

/-- R132 to R134: the bitwise results, and VF = 0 in every form, X = 0xF included (that the flag is
the later write there is the spec's decision D15). -/
def Obligations.LogicClearsVF : Prop :=
  ∀ (x y : RegIdx) (s : State), ∀ p ∈ [(Instr.orReg x y, s.reg x ||| s.reg y),
      (Instr.andReg x y, s.reg x &&& s.reg y), (Instr.xorReg x y, s.reg x ^^^ s.reg y)],
    ∃ t, exec p.1 s = .next t ∧ t.reg 0xF#4 = 0x00#8 ∧ (x ≠ 0xF#4 → t.reg x = p.2) ∧
      SameRegsBut [x, 0xF#4] s t ∧ t.pc = s.pc ∧ t.I = s.I ∧ SameOutsideRegisters s t

/-- R135: the sum modulo 256 and the carry; with X = 0xF the carry stays (D15). -/
def Obligations.AddSetsCarry : Prop :=
  ∀ (x y : RegIdx) (s : State), ∃ t, exec (.addReg x y) s = .next t ∧
    (x ≠ 0xF#4 → (t.reg x).toNat = ((s.reg x).toNat + (s.reg y).toNat) % 256) ∧
    (t.reg 0xF#4).toNat = (if 255 < (s.reg x).toNat + (s.reg y).toNat then 1 else 0) ∧
    SameRegsBut [x, 0xF#4] s t ∧ t.pc = s.pc ∧ t.I = s.I ∧ SameOutsideRegisters s t

/-- R136, R138: the difference modulo 256 and the not-borrow flag; with X = 0xF the difference stays
(the spec's decision D15). -/
def Obligations.SubtractSetsNotBorrow : Prop :=
  ∀ (x y : RegIdx) (s : State), ∀ p ∈ [(Instr.subReg x y, (s.reg x).toNat, (s.reg y).toNat),
      (Instr.subnReg x y, (s.reg y).toNat, (s.reg x).toNat)],
    ∃ t, exec p.1 s = .next t ∧ (t.reg x).toNat = (p.2.1 + 256 - p.2.2) % 256 ∧
      (x ≠ 0xF#4 → (t.reg 0xF#4).toNat = if p.2.2 ≤ p.2.1 then 1 else 0) ∧
      SameRegsBut [x, 0xF#4] s t ∧ t.pc = s.pc ∧ t.I = s.I ∧ SameOutsideRegisters s t

/-- R137, R139: Vy is shifted by one, VF is the bit shifted out, the old Vx plays no part; with
X = 0xF the shifted value stays (the spec's decisions D15, D34). -/
def Obligations.ShiftsTakeVy : Prop :=
  ∀ (x y : RegIdx) (s : State),
    (∃ t, exec (.shrReg x y) s = .next t ∧ (t.reg x).toNat = (s.reg y).toNat / 2 ∧
      (x ≠ 0xF#4 → (t.reg 0xF#4).toNat = (s.reg y).toNat % 2) ∧
      SameRegsBut [x, 0xF#4] s t ∧ t.pc = s.pc ∧ t.I = s.I ∧ SameOutsideRegisters s t) ∧
    ∃ t, exec (.shlReg x y) s = .next t ∧ (t.reg x).toNat = (s.reg y).toNat * 2 % 256 ∧
      (x ≠ 0xF#4 → (t.reg 0xF#4).toNat = (s.reg y).toNat / 128) ∧
      SameRegsBut [x, 0xF#4] s t ∧ t.pc = s.pc ∧ t.I = s.I ∧ SameOutsideRegisters s t

/-! ### Display -/

/-- R147: every pixel off, VF untouched, presented exactly once; the writes stay when the answer is
`fail` (the handshake is the spec's decision D19). -/
def Obligations.ClearDarkensAndPresents : Prop :=
  ∀ s : State, ∃ t, exec .cls s = .next t ∧ (∀ r c, t.pixel r c = false) ∧ gridShape t.cfg t.fb ∧
    PresentsOnce s t ∧ SameRegsBut [] s t ∧ t.pc = s.pc ∧ t.I = s.I ∧ SameMemory s t ∧
    t.cfg = s.cfg ∧ SameCallStack s t ∧ SameTimers s t ∧ t.waitKey = s.waitKey

/-- R148, R149 pixel by pixel, when no row is read (N = 0, wherever `I` points) or every row that is
read lies in `mem`: a pixel of the grid is toggled exactly when the sprite has a 1 bit on it, VF
tells whether a lit pixel was, the grid is presented once. The invariant is a premise: the grid must have its shape. -/
def Obligations.DrawTogglesTheSpritesPixels : Prop :=
  ∀ (x y : RegIdx) (n : Nibble) (s : State), s.Inv →
    (visibleRows s y n = 0 ∨ s.I.toNat + visibleRows s y n ≤ s.cfg.memSize) →
    ∃ t, exec (.drw x y n) s = .next t ∧
      (∀ r c, r < s.cfg.height → c < s.cfg.width →
        (t.pixel r c ≠ s.pixel r c ↔ SpriteCovers s x y n r c)) ∧
      (t.reg 0xF#4 = 0x01#8 ∨ t.reg 0xF#4 = 0x00#8) ∧
      (t.reg 0xF#4 = 0x01#8 ↔ ∃ r c, r < s.cfg.height ∧ c < s.cfg.width ∧
        s.pixel r c = true ∧ SpriteCovers s x y n r c) ∧
      gridShape t.cfg t.fb ∧ PresentsOnce s t ∧ SameRegsBut [0xF#4] s t ∧ t.pc = s.pc ∧
      t.I = s.I ∧ SameMemory s t ∧ t.cfg = s.cfg ∧ SameCallStack s t ∧ SameTimers s t ∧
      t.waitKey = s.waitKey

/-- R149, R188 (the spec's decision D9): a draw that would read outside `mem` latches the fault and
does nothing else, no `Present()` included; rows that are clipped do not count. -/
def Obligations.DrawOutsideMemoryLatches : Prop :=
  ∀ (x y : RegIdx) (n : Nibble) (s : State), 1 ≤ visibleRows s y n →
    s.cfg.memSize < s.I.toNat + visibleRows s y n →
    exec (.drw x y n) s =
      .next { s with fault := some (.memoryOutOfRange (max s.I.toNat s.cfg.memSize)) }

/-- R149 (8.T4 of the document): the same draw twice restores the framebuffer, when no row is read or
every row read lies in `mem`, the coordinates are not taken from VF, and the first draw's `Present()` is answered either way. -/
def Obligations.DrawTwiceRestoresTheGrid : Prop :=
  ∀ (x y : RegIdx) (n : Nibble) (s t u : State), s.Inv → x ≠ 0xF#4 → y ≠ 0xF#4 →
    (visibleRows s y n = 0 ∨ s.I.toNat + visibleRows s y n ≤ s.cfg.memSize) →
    exec (.drw x y n) s = .next t → exec (.drw x y n) t = .next u → u.fb = s.fb

/-! ### Keypad -/

/-- R156, R157 with Vx ≤ 15: one query, and a skip on its answer, which is free (log entries 4 and
5). The 16-bit wrap of `pc` is the spec's decision D11 (log entry 19). -/
def Obligations.KeySkipsFollowTheAnswer : Prop :=
  ∀ (x : RegIdx) (s : State), (s.reg x).toNat ≤ 15 →
    ∃ down : Bool,
      down = s.env.keyAnswers.headD
        (Config.freeKeyDown s.env.asked (BitVec.ofNat 4 (s.reg x).toNat)) ∧
      ∀ p ∈ [(Instr.skp x, down), (Instr.sknp x, !down)],
        ∃ t, exec p.1 s = .next t ∧
          t.pc.toNat = (if p.2 then (s.pc.toNat + 2) % 65536 else s.pc.toNat) ∧
          t.env = { s.env with keyAnswers := s.env.keyAnswers.tail, asked := s.env.asked + 1 } ∧
          SameRegsBut [] s t ∧ t.I = s.I ∧ SameMemory s t ∧ SameDevices s t ∧ t.fault = s.fault

/-- R155 to R157 with Vx > 15 (the spec's decision D16): the fault is latched before any query, and
nothing else changes. -/
def Obligations.KeyNumberAboveFifteenLatches : Prop :=
  ∀ (x : RegIdx) (s : State), 15 < (s.reg x).toNat → ∀ i ∈ [Instr.skp x, Instr.sknp x],
    exec i s = .next { s with fault := some (.keyIndexOutOfRange (s.reg x)) }

/-- R158: the three cases of the blocking key read. -/
def Obligations.KeyReadArmsWaitsAndDelivers : Prop :=
  ∀ (x : RegIdx) (s : State), ∃ t, exec (.ldVxK x) s = .next t ∧
    (s.waitKey = .notWaiting → t.waitKey = .armed ∧ t.pc = s.pc - 2#16 ∧ SameRegsBut [] s t) ∧
    (s.waitKey = .armed → t.waitKey = .armed ∧ t.pc = s.pc - 2#16 ∧ SameRegsBut [] s t) ∧
    (∀ k, s.waitKey = .captured k → t.waitKey = .notWaiting ∧ t.pc = s.pc ∧
      (t.reg x).toNat = k.toNat ∧ SameRegsBut [x] s t) ∧
    t.I = s.I ∧ SameMemory s t ∧ t.cfg = s.cfg ∧ SameCallStack s t ∧ SameTimers s t ∧
    t.fb = s.fb ∧ Quiet s t

/-- R158, R193, R218 (8.T6 of the document): an FX0A waits at its own address through any number of
steps with no register changed, and the step after a key release delivers the key. -/
def Obligations.KeyWaitEndsWithTheReleasedKey : Prop :=
  ∀ (x : RegIdx) (k : Key) (n : Nat) (s : State), s.fault = none → s.waitKey = .notWaiting →
    s.Fetchable → decode (s.peek s.pc.toNat ++ s.peek (s.pc.toNat + 1)) = .ok (.ldVxK x) →
    (∃ t, runEvents (List.replicate (n + 1) .step) s = .next t ∧ t.pc = s.pc ∧ t.V = s.V ∧
      t.waitKey = .armed) ∧
    ∃ t, runEvents (List.replicate (n + 1) .step ++ [.keyRelease k, .step]) s = .next t ∧
      t.pc = s.pc + 2#16 ∧ (t.reg x).toNat = k.toNat ∧ SameRegsBut [x] s t ∧
      t.waitKey = .notWaiting ∧ t.fault = none

/-! ### Timers, index, memory transfer -/

/-- R166, R167, R168. -/
def Obligations.TimerTransfers : Prop :=
  ∀ (x : RegIdx) (s : State),
    (∃ t, exec (.ldVxDt x) s = .next t ∧ t.reg x = s.DT ∧ SameRegsBut [x] s t ∧ t.pc = s.pc ∧
      t.I = s.I ∧ SameOutsideRegisters s t) ∧
    (∃ t, exec (.ldDtVx x) s = .next t ∧ t.DT = s.reg x ∧ t.ST = s.ST ∧ SameRegsBut [] s t ∧
      t.pc = s.pc ∧ t.I = s.I ∧ SameMemory s t ∧ t.cfg = s.cfg ∧ SameCallStack s t ∧
      t.waitKey = s.waitKey ∧ t.fb = s.fb ∧ Quiet s t) ∧
    ∃ t, exec (.ldStVx x) s = .next t ∧ t.ST = s.reg x ∧ t.DT = s.DT ∧ SameRegsBut [] s t ∧
      t.pc = s.pc ∧ t.I = s.I ∧ SameMemory s t ∧ t.cfg = s.cfg ∧ SameCallStack s t ∧
      t.waitKey = s.waitKey ∧ t.fb = s.fb ∧ Quiet s t

/-- R169 (the 16-bit wrap is the spec's decision D30): no flag, no reduction to 12 bits. -/
def Obligations.AddToIndexWrapsAt16Bits : Prop :=
  ∀ (x : RegIdx) (s : State), ∃ t, exec (.addIVx x) s = .next t ∧
    t.I.toNat = (s.I.toNat + (s.reg x).toNat) % 65536 ∧ SameRegsBut [] s t ∧ t.pc = s.pc ∧
    SameOutsideRegisters s t

/-- R122, R170: `I` is NNN zero-extended, or the glyph address of all eight bits of Vx. -/
def Obligations.IndexLoads : Prop :=
  ∀ (nnn : Imm12) (x : RegIdx) (s : State),
    ∀ p ∈ [(Instr.ldI nnn, nnn.toNat), (Instr.ldFVx x, 0x0050 + 5 * (s.reg x).toNat)],
      ∃ t, exec p.1 s = .next t ∧ t.I.toNat = p.2 ∧ SameRegsBut [] s t ∧ t.pc = s.pc ∧
        SameOutsideRegisters s t

/-- R171 with the three addresses inside `mem`: one decimal digit to a byte, most significant at the
lowest address, `I` unchanged. -/
def Obligations.DecimalDigitsAreStored : Prop :=
  ∀ (x : RegIdx) (s : State), s.I.toNat + 2 < s.cfg.memSize →
    ∃ t, exec (.ldBVx x) s = .next t ∧
      (t.peek (s.I.toNat)).toNat * 100 + (t.peek (s.I.toNat + 1)).toNat * 10 +
        (t.peek (s.I.toNat + 2)).toNat = (s.reg x).toNat ∧
      (t.peek (s.I.toNat)).toNat ≤ 2 ∧ (t.peek (s.I.toNat + 1)).toNat ≤ 9 ∧
      (t.peek (s.I.toNat + 2)).toNat ≤ 9 ∧ SameMemoryOutside s.I.toNat 3 s t ∧
      SameRegsBut [] s t ∧ t.pc = s.pc ∧ t.I = s.I ∧ SameDevices s t ∧ Quiet s t

/-- R172 with the range inside `mem`: V0 to VX stored in order, `I` advanced by X + 1. -/
def Obligations.DumpStoresV0ToVx : Prop :=
  ∀ (x : RegIdx) (s : State), s.I.toNat + x.toNat < s.cfg.memSize →
    ∃ t, exec (.ldMemVx x) s = .next t ∧
      (∀ r : RegIdx, r.toNat ≤ x.toNat → t.peek (s.I.toNat + r.toNat) = s.reg r) ∧
      t.I.toNat = (s.I.toNat + x.toNat + 1) % 65536 ∧
      SameMemoryOutside s.I.toNat (x.toNat + 1) s t ∧ SameRegsBut [] s t ∧ t.pc = s.pc ∧
      SameDevices s t ∧ Quiet s t

/-- R173 with the range inside `mem`: V0 to VX loaded in order, the registers above untouched, `I`
advanced by X + 1. -/
def Obligations.LoadFillsV0ToVx : Prop :=
  ∀ (x : RegIdx) (s : State), s.I.toNat + x.toNat < s.cfg.memSize →
    ∃ t, exec (.ldVxMem x) s = .next t ∧
      (∀ r : RegIdx, t.reg r =
        if r.toNat ≤ x.toNat then s.peek (s.I.toNat + r.toNat) else s.reg r) ∧
      t.I.toNat = (s.I.toNat + x.toNat + 1) % 65536 ∧ t.pc = s.pc ∧ SameOutsideRegisters s t

/-- R171 to R173, R188 (the spec's decisions D7, D9): a transfer that would touch an address outside
`mem` latches the fault with max(I, MEM_SIZE) and changes nothing else. -/
def Obligations.TransferOutsideMemoryLatches : Prop :=
  ∀ (x : RegIdx) (s : State),
    ∀ p ∈ [(Instr.ldBVx x, 2), (Instr.ldMemVx x, x.toNat), (Instr.ldVxMem x, x.toNat)],
      s.cfg.memSize ≤ s.I.toNat + p.2 → exec p.1 s =
        .next { s with fault := some (.memoryOutOfRange (max s.I.toNat s.cfg.memSize)) }

/-- R61: a dump over the next instruction's bytes is what the very next fetch reads. -/
def Obligations.StoredInstructionIsFetched : Prop :=
  ∀ (x a b : RegIdx) (s t : State), s.I.toNat + x.toNat < s.cfg.memSize →
    exec (.ldMemVx x) s = .next t → s.pc.toNat = s.I.toNat + a.toNat →
    b.toNat = a.toNat + 1 → b.toNat ≤ x.toNat → t.fetch = .ok (s.reg a ++ s.reg b)

/-! ### Whole-machine rules -/

/-- R63, R57: a byte of memory changes only under FX33 and FX55, and only inside their range. -/
def Obligations.OnlyTransfersWriteMemory : Prop :=
  ∀ (i : Instr) (s t : State), exec i s = .next t → ∀ a, t.peek a ≠ s.peek a →
    (∃ x, i = .ldBVx x ∧ s.I.toNat ≤ a ∧ a ≤ s.I.toNat + 2) ∨
    ∃ x, i = .ldMemVx x ∧ s.I.toNat ≤ a ∧ a ≤ s.I.toNat + x.toNat

/-- R24, R25, R27, R28, R29, R31: which instructions write the framebuffer, the call stack, the
timers, `wait_key` and `I`. -/
def Obligations.EachElementHasItsWriters : Prop :=
  ∀ (i : Instr) (s t : State), exec i s = .next t →
    (t.fb ≠ s.fb → i = .cls ∨ ∃ x y n, i = .drw x y n) ∧
    (¬ SameCallStack s t → i = .ret ∨ ∃ nnn, i = .call nnn) ∧
    (t.DT ≠ s.DT → ∃ x, i = .ldDtVx x) ∧ (t.ST ≠ s.ST → ∃ x, i = .ldStVx x) ∧
    (t.waitKey ≠ s.waitKey → ∃ x, i = .ldVxK x) ∧
    (t.I ≠ s.I → (∃ nnn, i = .ldI nnn) ∨ ∃ x, i = .addIVx x ∨ i = .ldFVx x ∨ i = .ldMemVx x ∨
      i = .ldVxMem x)

/-- R22: the listed instructions leave 0x00 or 0x01 in VF unless X = 0xF, and no other instruction
writes VF unless its destination is VF or its load range includes it. -/
def Obligations.FlagIsWrittenOnlyByTheListed : Prop :=
  ∀ (i : Instr) (s t : State), exec i s = .next t →
    (i.writesFlag = true → i.destination ≠ some 0xF#4 →
      t.reg 0xF#4 = 0x00#8 ∨ t.reg 0xF#4 = 0x01#8 ∨ t = { s with fault := t.fault }) ∧
    (i.writesFlag = false → i.destination ≠ some 0xF#4 → i ≠ .ldVxMem 0xF#4 →
      t.reg 0xF#4 = s.reg 0xF#4)

/-- R23: the ways an instruction leaves `pc`; only the six skips, the jumps, the call, the return
and the key read change it beyond the advance. -/
def Obligations.PcChangesOnlyInTheListedWays : Prop :=
  ∀ (i : Instr) (s t : State), exec i s = .next t →
    t.pc = s.pc ∨ (i.skips = true ∧ t.pc = s.pc + 2#16) ∨
    (∃ nnn : Imm12, (i = .jp nnn ∨ i = .call nnn) ∧ t.pc.toNat = nnn.toNat) ∨
    (∃ nnn : Imm12, i = .jpV0 nnn ∧ t.pc.toNat = nnn.toNat + (s.reg 0#4).toNat) ∨
    (i = .ret ∧ t.pc = s.stackAt (s.sp - 1)) ∨ ∃ x, i = .ldVxK x ∧ t.pc = s.pc - 2#16

/-- R181, R182: an instruction latches only the faults the spec gives it, with the information the
spec says is recorded. -/
def Obligations.OnlyTheListedFaults : Prop :=
  ∀ (i : Instr) (s t : State) (f : Fault), s.fault = none → exec i s = .next t →
    t.fault = some f → MayRaise i s f

/-- R188 (the spec's decision D9): but for `DisplayFlushFailure`, a fault an instruction latches is
the only thing that changes. -/
def Obligations.FaultsArePrecise : Prop :=
  ∀ (i : Instr) (s t : State) (f : Fault), s.fault = none → exec i s = .next t →
    t.fault = some f → (∀ ia, f ≠ .displayFlushFailure ia) → t = { s with fault := some f }

/-- R35: only 00E0, DXYN, EX9E, EXA1 and CXNN can tell the environment's answers apart. -/
def Obligations.OnlyAskingInstructionsSeeTheAnswers : Prop :=
  ∀ (i : Instr) (s t : State) (e : Env), i.asks = false → exec i s = .next t →
    exec i { s with env := { e with outputs := s.env.outputs } } =
      .next { t with env := { e with outputs := t.env.outputs } }

/-- R36, R146, R187: one diagnostic per `SYS`, one `Present()` per clear and per draw that does not
fault on memory, none for a draw that does, nothing else. -/
def Obligations.OutputsOfEachInstruction : Prop :=
  ∀ (i : Instr) (s t : State), s.fault = none → exec i s = .next t →
    (∃ nnn, i = .sys nnn ∧
      t.env.outputs = .diag .nativeCall (s.pc - 2#16) (encode i) :: s.env.outputs) ∨
    ((i = .cls ∨ ∃ x y n, i = .drw x y n) ∧
      t.env.outputs = .presented t.fb :: s.env.outputs ∧
      ∀ a, t.fault ≠ some (.memoryOutOfRange a)) ∨
    (t.env.outputs = s.env.outputs ∧ i ≠ .cls ∧ (∀ nnn, i ≠ .sys nnn) ∧
      ∀ x y n, i = .drw x y n → t.fault = some (.memoryOutOfRange (max s.I.toNat s.cfg.memSize)))

/-- R192, R194 (5 of the document: "timers decrement independently of instruction count"): a tick
before an instruction that uses no timer is a tick after it. -/
def Obligations.TicksCommuteWithOtherInstructions : Prop :=
  ∀ (i : Instr) (s t : State), i.usesTimer = false → s.fault = none → t.fault = none →
    exec i s = .next t → exec i s.tick60 = .next t.tick60

/-- T5 of the document (R105, R107): a call and the return at its target come back to the
instruction after the call, with the call stack's level as before. -/
def Obligations.CallThenReturnComesBack : Prop :=
  ∀ (nnn : Imm12) (s : State), s.Inv → s.fault = none → s.sp < s.cfg.stackDepth → s.Fetchable →
    s.peek s.pc.toNat ++ s.peek (s.pc.toNat + 1) = encode (.call nnn) →
    nnn.toNat + 1 < s.cfg.memSize →
    s.peek nnn.toNat = 0x00#8 → s.peek (nnn.toNat + 1) = 0xEE#8 →
    ∃ t, runEvents [.step, .step] s = .next t ∧ t.pc = s.pc + 2#16 ∧ t.sp = s.sp ∧
      t.fault = none ∧ SameRegsBut [] s t ∧ SameMemory s t ∧ t.I = s.I

/-! ### External events and reset -/

/-- R192 (that one event counts both timers is the spec's decision D32): each timer goes down by one
and stops at 0, nothing else changes. -/
def Obligations.TickSaturatesBothTimers : Prop :=
  ∀ s : State, s.fault = none → ∃ t, applyEvent .tick60 s = .next t ∧
    t.DT.toNat = s.DT.toNat - 1 ∧ t.ST.toNat = s.ST.toNat - 1 ∧
    t = { s with DT := t.DT, ST := t.ST }

/-- R193, R159 (the two ignored cases are the spec's decision D17): a release is captured exactly
when the wait is armed; the first one wins. -/
def Obligations.ReleaseIsCapturedOnlyWhenArmed : Prop :=
  ∀ (k : Key) (s : State), s.fault = none →
    (s.waitKey = .armed → applyEvent (.keyRelease k) s = .next { s with waitKey := .captured k }) ∧
    (s.waitKey ≠ .armed → applyEvent (.keyRelease k) s = .next s)

/-- R51, R210, R211, R213: the memory image a reset builds, for every legal configuration and every
ROM that fits. -/
def Obligations.ResetBuildsTheMemoryImage : Prop :=
  ∀ (rom : List Byte) (s : State), s.cfg.Legal → rom.length ≤ s.cfg.memSize - 0x200 →
    ∃ t, applyEvent (.reset rom) s = .next t ∧ ∀ a, a < s.cfg.memSize →
      (∀ i, (h : i < rom.length) → a = 0x200 + i → t.peek a = rom[i]) ∧
      (∀ i, (h : i < 80) → a = 0x050 + i → t.peek a = s.cfg.font[i]) ∧
      (a < 0x050 ∨ (0x0A0 ≤ a ∧ a < 0x200) ∨ 0x200 + rom.length ≤ a → t.peek a = 0x00#8)

/-- R37, R214: every other element after a reset, which clears the latch as well. The values of V,
I, DT, ST, the stack entries and the pixels are the spec's decision D12, the clear latch D8 (log
entry 6). -/
def Obligations.ResetLeavesTheListedValues : Prop :=
  ∀ (rom : List Byte) (s t : State), s.resetEvent rom = .next t →
    t.pc = 0x0200#16 ∧ t.waitKey = .notWaiting ∧ t.sp = 0 ∧ (∀ j, t.stackAt j = 0x0000#16) ∧
    (∀ r, t.reg r = 0x00#8) ∧ t.I = 0x0000#16 ∧ t.DT = 0x00#8 ∧ t.ST = 0x00#8 ∧
    (∀ r c, t.pixel r c = false) ∧ t.fault = none ∧ t.cfg = s.cfg

/-- R212, R203: the limit, refusal above it, and a ROM of exactly the limit filling memory to its last
byte. That the refusal is the model's `oversizedRom` and that every ROM within the limit is loaded,
the empty one included, is log entry 25 (the spec's decisions D1 and D31). -/
def Obligations.RomSizeLimit : Prop :=
  (∀ (rom : List Byte) (s : State), s.cfg.Legal →
    (s.cfg.memSize - 0x200 < rom.length →
      s.resetEvent rom = .refused (.oversizedRom rom.length)) ∧
    (rom.length ≤ s.cfg.memSize - 0x200 → ∃ t, s.resetEvent rom = .next t ∧
      ∀ b, rom.length = s.cfg.memSize - 0x200 → rom.getLast? = some b →
        t.peek (s.cfg.memSize - 1) = b)) ∧
  ∀ s : State, s.cfg.memSize = 4096 → romLimit s.cfg = 3584

/-! ### Invariants -/

/-- The reset state meets the invariant. -/
def Obligations.ResetMeetsTheInvariant : Prop := State.reset.Inv

/-- The invariant (legal configuration, memory in canonical form, call stack of its size with its
pointer in bounds, grid of its shape) is kept by every step. -/
def Obligations.StepKeepsTheInvariant : Prop :=
  ∀ s t : State, s.Inv → step s = .next t → t.Inv

/-- Every run of events, in any order and number, from any state that meets the invariant keeps it,
and keeps the configuration. -/
def Obligations.RunsKeepTheInvariant : Prop :=
  ∀ (es : List Event) (s t : State), s.Inv → runEvents es s = .next t → t.Inv ∧ t.cfg = s.cfg

/-- Memories in canonical form that read alike are the same data. -/
def Obligations.EqualContentsAreEqualMemories : Prop :=
  ∀ (cfg : Config) (m n : List Host.Cell), Memory.wf cfg m → Memory.wf cfg n →
    (∀ a, Memory.read cfg.font m a = Memory.read cfg.font n a) → m = n
end

