-- ==== Sys2Proof/Laws/Memory.lean ====
section
/-! SUPPORT. The byte memory: reading after writing, and that every operation keeps the canonical
form, which the reset memory has. -/

namespace Sys2Proof.Machine.Memory

variable {font : Vector Byte 80} {m n : List Host.Cell} {a b : Nat} {v : Byte}

@[simp] theorem lookup_nil : lookup [] a = none := rfl

theorem lookup_insert_same : lookup (insert a v m) a = some v := by
  induction m with
  | nil => simp [insert, lookup]
  | cons c rest ih =>
    obtain ⟨k, w⟩ := c
    simp only [insert]
    split
    · simp [lookup]
    · split
      · simp [lookup]
      · next h => simp [lookup, Ne.symm h, ih]

theorem lookup_insert_other (h : b ≠ a) : lookup (insert a v m) b = lookup m b := by
  induction m with
  | nil => simp [insert, lookup, Ne.symm h]
  | cons c rest ih =>
    obtain ⟨k, w⟩ := c
    simp only [insert]
    split
    · simp [lookup, Ne.symm h]
    · split
      · next e => subst e; simp [lookup, Ne.symm h]
      · simp [lookup, ih]

theorem lookup_erase_same : lookup (erase a m) a = none := by
  induction m with
  | nil => rfl
  | cons c rest ih =>
    obtain ⟨k, w⟩ := c
    simp only [erase]
    split
    · exact ih
    · next e => simp only [lookup, if_neg (Ne.symm e)]; exact ih

theorem lookup_erase_other (h : b ≠ a) : lookup (erase a m) b = lookup m b := by
  induction m with
  | nil => rfl
  | cons c rest ih =>
    obtain ⟨k, w⟩ := c
    simp only [erase]
    split
    · next e => subst e; simp [lookup, Ne.symm h, ih]
    · simp [lookup, ih]

theorem mem_insert {c : Host.Cell} (h : c ∈ insert a v m) : c = (a, v) ∨ c ∈ m := by
  induction m with
  | nil => simpa [insert] using h
  | cons d rest ih =>
    simp only [insert] at h
    split at h
    · simpa using h
    · split at h
      · rcases List.mem_cons.1 h with h | h
        · exact .inl h
        · exact .inr (by simp [h])
      · rcases List.mem_cons.1 h with h | h
        · exact .inr (by simp [h])
        · rcases ih h with h | h
          · exact .inl h
          · exact .inr (by simp [h])

theorem mem_erase {c : Host.Cell} (h : c ∈ erase a m) : c ∈ m := by
  induction m with
  | nil => simp [erase] at h
  | cons d rest ih =>
    simp only [erase] at h
    split at h
    · simp [ih h]
    · rcases List.mem_cons.1 h with h | h
      · simp [h]
      · simp [ih h]

theorem sorted_insert (hm : m.Pairwise (fun c d => c.1 < d.1)) :
    (insert a v m).Pairwise (fun c d => c.1 < d.1) := by
  induction m with
  | nil => simp [insert]
  | cons d rest ih =>
    have hm' := List.pairwise_cons.1 hm
    simp only [insert]
    split
    · next h =>
      refine List.pairwise_cons.2 ⟨fun c hc => ?_, hm⟩
      rcases List.mem_cons.1 hc with rfl | hc
      · exact h
      · exact h.trans (hm'.1 c hc)
    · split
      · next e => exact List.pairwise_cons.2 ⟨fun c hc => by simpa [e] using hm'.1 c hc, hm'.2⟩
      · next h1 h2 =>
        refine List.pairwise_cons.2 ⟨fun c hc => ?_, ih hm'.2⟩
        rcases mem_insert hc with rfl | hc
        · show d.1 < a; omega
        · exact hm'.1 c hc

theorem sorted_erase (hm : m.Pairwise (fun c d => c.1 < d.1)) :
    (erase a m).Pairwise (fun c d => c.1 < d.1) := by
  induction m with
  | nil => exact hm
  | cons d rest ih =>
    have hm' := List.pairwise_cons.1 hm
    simp only [erase]
    split
    · exact ih hm'.2
    · exact List.pairwise_cons.2 ⟨fun c hc => hm'.1 c (mem_erase hc), ih hm'.2⟩

/-- A byte reads back as it was written. -/
theorem read_write_same : read font (write font m a v) a = v := by
  unfold read write
  split
  · next h => rw [lookup_erase_same, h]; rfl
  · rw [lookup_insert_same]; rfl

/-- A write leaves every other address alone. -/
theorem read_write_other (h : b ≠ a) : read font (write font m a v) b = read font m b := by
  unfold read write
  split
  · rw [lookup_erase_other h]
  · rw [lookup_insert_other h]

/-- A write inside `mem` keeps the canonical form. -/
theorem wf_write {cfg : Config} (hm : wf cfg m) (ha : a < cfg.memSize) :
    wf cfg (write cfg.font m a v) := by
  unfold write
  split
  · exact ⟨sorted_erase hm.1, fun c hc => hm.2 c (mem_erase hc)⟩
  · next h =>
    refine ⟨sorted_insert hm.1, fun c hc => ?_⟩
    rcases mem_insert hc with rfl | hc
    · exact ⟨ha, h⟩
    · exact hm.2 c hc

theorem wf_nil (cfg : Config) : wf cfg [] := ⟨List.Pairwise.nil, by simp⟩

/-- The memory of the reset state is in canonical form. -/
theorem wf_reset : wf State.reset.cfg State.reset.mem := wf_nil _

theorem read_nil : read font [] a = background font a := rfl

end Sys2Proof.Machine.Memory

namespace Sys2Proof.Machine

/-- The font region of the reset image (R51). -/
theorem background_font (font : Vector Byte 80) {i : Nat} (h : i < 80) :
    background font (0x050 + i) = font[i] := by
  have hc : fontBase ≤ 0x050 + i ∧ 0x050 + i < fontBase + fontLength :=
    ⟨Nat.le_add_right _ _, Nat.add_lt_add_left h _⟩
  have hi : 0x050 + i - fontBase = i := Nat.add_sub_cancel_left _ _
  unfold background
  rw [if_pos hc, hi]
  simp [h]

/-- Everything else of the reset image is zero (R51). -/
theorem background_elsewhere (font : Vector Byte 80) {a : Nat} (h : a < 0x050 ∨ 0x0A0 ≤ a) :
    background font a = 0x00#8 := by
  refine if_neg ?_
  show ¬ (0x050 ≤ a ∧ a < 0x050 + 80)
  omega

end Sys2Proof.Machine
end

