-- ==== Sys2Proof/Laws/State.lean ====
section
/-! SUPPORT. One lemma per field per update: what each named operation of the machine does to each
field of `State`, true by `rfl`, so that no later proof unfolds a record update. -/

namespace Sys2Proof.Machine.State

variable (s : State)

/-! ### `writeReg` -/

@[simp] theorem writeReg_cfg (x : RegIdx) (b : Byte) : (s.writeReg x b).cfg = s.cfg := rfl
@[simp] theorem writeReg_mem (x : RegIdx) (b : Byte) : (s.writeReg x b).mem = s.mem := rfl
@[simp] theorem writeReg_pc (x : RegIdx) (b : Byte) : (s.writeReg x b).pc = s.pc := rfl
@[simp] theorem writeReg_I (x : RegIdx) (b : Byte) : (s.writeReg x b).I = s.I := rfl
@[simp] theorem writeReg_V (x : RegIdx) (b : Byte) : (s.writeReg x b).V = s.V.set x.toNat b x.isLt := rfl
@[simp] theorem writeReg_stack (x : RegIdx) (b : Byte) : (s.writeReg x b).stack = s.stack := rfl
@[simp] theorem writeReg_sp (x : RegIdx) (b : Byte) : (s.writeReg x b).sp = s.sp := rfl
@[simp] theorem writeReg_DT (x : RegIdx) (b : Byte) : (s.writeReg x b).DT = s.DT := rfl
@[simp] theorem writeReg_ST (x : RegIdx) (b : Byte) : (s.writeReg x b).ST = s.ST := rfl
@[simp] theorem writeReg_waitKey (x : RegIdx) (b : Byte) : (s.writeReg x b).waitKey = s.waitKey := rfl
@[simp] theorem writeReg_fb (x : RegIdx) (b : Byte) : (s.writeReg x b).fb = s.fb := rfl
@[simp] theorem writeReg_fault (x : RegIdx) (b : Byte) : (s.writeReg x b).fault = s.fault := rfl
@[simp] theorem writeReg_env (x : RegIdx) (b : Byte) : (s.writeReg x b).env = s.env := rfl

/-! ### `setPc` -/

@[simp] theorem setPc_cfg (w : Word) : (s.setPc w).cfg = s.cfg := rfl
@[simp] theorem setPc_mem (w : Word) : (s.setPc w).mem = s.mem := rfl
@[simp] theorem setPc_pc (w : Word) : (s.setPc w).pc = w := rfl
@[simp] theorem setPc_I (w : Word) : (s.setPc w).I = s.I := rfl
@[simp] theorem setPc_V (w : Word) : (s.setPc w).V = s.V := rfl
@[simp] theorem setPc_stack (w : Word) : (s.setPc w).stack = s.stack := rfl
@[simp] theorem setPc_sp (w : Word) : (s.setPc w).sp = s.sp := rfl
@[simp] theorem setPc_DT (w : Word) : (s.setPc w).DT = s.DT := rfl
@[simp] theorem setPc_ST (w : Word) : (s.setPc w).ST = s.ST := rfl
@[simp] theorem setPc_waitKey (w : Word) : (s.setPc w).waitKey = s.waitKey := rfl
@[simp] theorem setPc_fb (w : Word) : (s.setPc w).fb = s.fb := rfl
@[simp] theorem setPc_fault (w : Word) : (s.setPc w).fault = s.fault := rfl
@[simp] theorem setPc_env (w : Word) : (s.setPc w).env = s.env := rfl

/-! ### `setI` -/

@[simp] theorem setI_cfg (w : Word) : (s.setI w).cfg = s.cfg := rfl
@[simp] theorem setI_mem (w : Word) : (s.setI w).mem = s.mem := rfl
@[simp] theorem setI_pc (w : Word) : (s.setI w).pc = s.pc := rfl
@[simp] theorem setI_I (w : Word) : (s.setI w).I = w := rfl
@[simp] theorem setI_V (w : Word) : (s.setI w).V = s.V := rfl
@[simp] theorem setI_stack (w : Word) : (s.setI w).stack = s.stack := rfl
@[simp] theorem setI_sp (w : Word) : (s.setI w).sp = s.sp := rfl
@[simp] theorem setI_DT (w : Word) : (s.setI w).DT = s.DT := rfl
@[simp] theorem setI_ST (w : Word) : (s.setI w).ST = s.ST := rfl
@[simp] theorem setI_waitKey (w : Word) : (s.setI w).waitKey = s.waitKey := rfl
@[simp] theorem setI_fb (w : Word) : (s.setI w).fb = s.fb := rfl
@[simp] theorem setI_fault (w : Word) : (s.setI w).fault = s.fault := rfl
@[simp] theorem setI_env (w : Word) : (s.setI w).env = s.env := rfl

/-! ### `setDT` -/

@[simp] theorem setDT_cfg (b : Byte) : (s.setDT b).cfg = s.cfg := rfl
@[simp] theorem setDT_mem (b : Byte) : (s.setDT b).mem = s.mem := rfl
@[simp] theorem setDT_pc (b : Byte) : (s.setDT b).pc = s.pc := rfl
@[simp] theorem setDT_I (b : Byte) : (s.setDT b).I = s.I := rfl
@[simp] theorem setDT_V (b : Byte) : (s.setDT b).V = s.V := rfl
@[simp] theorem setDT_stack (b : Byte) : (s.setDT b).stack = s.stack := rfl
@[simp] theorem setDT_sp (b : Byte) : (s.setDT b).sp = s.sp := rfl
@[simp] theorem setDT_DT (b : Byte) : (s.setDT b).DT = b := rfl
@[simp] theorem setDT_ST (b : Byte) : (s.setDT b).ST = s.ST := rfl
@[simp] theorem setDT_waitKey (b : Byte) : (s.setDT b).waitKey = s.waitKey := rfl
@[simp] theorem setDT_fb (b : Byte) : (s.setDT b).fb = s.fb := rfl
@[simp] theorem setDT_fault (b : Byte) : (s.setDT b).fault = s.fault := rfl
@[simp] theorem setDT_env (b : Byte) : (s.setDT b).env = s.env := rfl

/-! ### `setST` -/

@[simp] theorem setST_cfg (b : Byte) : (s.setST b).cfg = s.cfg := rfl
@[simp] theorem setST_mem (b : Byte) : (s.setST b).mem = s.mem := rfl
@[simp] theorem setST_pc (b : Byte) : (s.setST b).pc = s.pc := rfl
@[simp] theorem setST_I (b : Byte) : (s.setST b).I = s.I := rfl
@[simp] theorem setST_V (b : Byte) : (s.setST b).V = s.V := rfl
@[simp] theorem setST_stack (b : Byte) : (s.setST b).stack = s.stack := rfl
@[simp] theorem setST_sp (b : Byte) : (s.setST b).sp = s.sp := rfl
@[simp] theorem setST_DT (b : Byte) : (s.setST b).DT = s.DT := rfl
@[simp] theorem setST_ST (b : Byte) : (s.setST b).ST = b := rfl
@[simp] theorem setST_waitKey (b : Byte) : (s.setST b).waitKey = s.waitKey := rfl
@[simp] theorem setST_fb (b : Byte) : (s.setST b).fb = s.fb := rfl
@[simp] theorem setST_fault (b : Byte) : (s.setST b).fault = s.fault := rfl
@[simp] theorem setST_env (b : Byte) : (s.setST b).env = s.env := rfl

/-! ### `setWaitKey` -/

@[simp] theorem setWaitKey_cfg (w : WaitKey) : (s.setWaitKey w).cfg = s.cfg := rfl
@[simp] theorem setWaitKey_mem (w : WaitKey) : (s.setWaitKey w).mem = s.mem := rfl
@[simp] theorem setWaitKey_pc (w : WaitKey) : (s.setWaitKey w).pc = s.pc := rfl
@[simp] theorem setWaitKey_I (w : WaitKey) : (s.setWaitKey w).I = s.I := rfl
@[simp] theorem setWaitKey_V (w : WaitKey) : (s.setWaitKey w).V = s.V := rfl
@[simp] theorem setWaitKey_stack (w : WaitKey) : (s.setWaitKey w).stack = s.stack := rfl
@[simp] theorem setWaitKey_sp (w : WaitKey) : (s.setWaitKey w).sp = s.sp := rfl
@[simp] theorem setWaitKey_DT (w : WaitKey) : (s.setWaitKey w).DT = s.DT := rfl
@[simp] theorem setWaitKey_ST (w : WaitKey) : (s.setWaitKey w).ST = s.ST := rfl
@[simp] theorem setWaitKey_waitKey (w : WaitKey) : (s.setWaitKey w).waitKey = w := rfl
@[simp] theorem setWaitKey_fb (w : WaitKey) : (s.setWaitKey w).fb = s.fb := rfl
@[simp] theorem setWaitKey_fault (w : WaitKey) : (s.setWaitKey w).fault = s.fault := rfl
@[simp] theorem setWaitKey_env (w : WaitKey) : (s.setWaitKey w).env = s.env := rfl

/-! ### `setFb` -/

@[simp] theorem setFb_cfg (g : Grid) : (s.setFb g).cfg = s.cfg := rfl
@[simp] theorem setFb_mem (g : Grid) : (s.setFb g).mem = s.mem := rfl
@[simp] theorem setFb_pc (g : Grid) : (s.setFb g).pc = s.pc := rfl
@[simp] theorem setFb_I (g : Grid) : (s.setFb g).I = s.I := rfl
@[simp] theorem setFb_V (g : Grid) : (s.setFb g).V = s.V := rfl
@[simp] theorem setFb_stack (g : Grid) : (s.setFb g).stack = s.stack := rfl
@[simp] theorem setFb_sp (g : Grid) : (s.setFb g).sp = s.sp := rfl
@[simp] theorem setFb_DT (g : Grid) : (s.setFb g).DT = s.DT := rfl
@[simp] theorem setFb_ST (g : Grid) : (s.setFb g).ST = s.ST := rfl
@[simp] theorem setFb_waitKey (g : Grid) : (s.setFb g).waitKey = s.waitKey := rfl
@[simp] theorem setFb_fb (g : Grid) : (s.setFb g).fb = g := rfl
@[simp] theorem setFb_fault (g : Grid) : (s.setFb g).fault = s.fault := rfl
@[simp] theorem setFb_env (g : Grid) : (s.setFb g).env = s.env := rfl

/-! ### `raise` -/

@[simp] theorem raise_cfg (f : Fault) : (s.raise f).cfg = s.cfg := rfl
@[simp] theorem raise_mem (f : Fault) : (s.raise f).mem = s.mem := rfl
@[simp] theorem raise_pc (f : Fault) : (s.raise f).pc = s.pc := rfl
@[simp] theorem raise_I (f : Fault) : (s.raise f).I = s.I := rfl
@[simp] theorem raise_V (f : Fault) : (s.raise f).V = s.V := rfl
@[simp] theorem raise_stack (f : Fault) : (s.raise f).stack = s.stack := rfl
@[simp] theorem raise_sp (f : Fault) : (s.raise f).sp = s.sp := rfl
@[simp] theorem raise_DT (f : Fault) : (s.raise f).DT = s.DT := rfl
@[simp] theorem raise_ST (f : Fault) : (s.raise f).ST = s.ST := rfl
@[simp] theorem raise_waitKey (f : Fault) : (s.raise f).waitKey = s.waitKey := rfl
@[simp] theorem raise_fb (f : Fault) : (s.raise f).fb = s.fb := rfl
@[simp] theorem raise_fault (f : Fault) : (s.raise f).fault = some f := rfl
@[simp] theorem raise_env (f : Fault) : (s.raise f).env = s.env := rfl

/-! ### `poke` -/

@[simp] theorem poke_cfg (a : Nat) (v : Byte) : (s.poke a v).cfg = s.cfg := rfl
@[simp] theorem poke_mem (a : Nat) (v : Byte) : (s.poke a v).mem = Memory.write s.cfg.font s.mem a v := rfl
@[simp] theorem poke_pc (a : Nat) (v : Byte) : (s.poke a v).pc = s.pc := rfl
@[simp] theorem poke_I (a : Nat) (v : Byte) : (s.poke a v).I = s.I := rfl
@[simp] theorem poke_V (a : Nat) (v : Byte) : (s.poke a v).V = s.V := rfl
@[simp] theorem poke_stack (a : Nat) (v : Byte) : (s.poke a v).stack = s.stack := rfl
@[simp] theorem poke_sp (a : Nat) (v : Byte) : (s.poke a v).sp = s.sp := rfl
@[simp] theorem poke_DT (a : Nat) (v : Byte) : (s.poke a v).DT = s.DT := rfl
@[simp] theorem poke_ST (a : Nat) (v : Byte) : (s.poke a v).ST = s.ST := rfl
@[simp] theorem poke_waitKey (a : Nat) (v : Byte) : (s.poke a v).waitKey = s.waitKey := rfl
@[simp] theorem poke_fb (a : Nat) (v : Byte) : (s.poke a v).fb = s.fb := rfl
@[simp] theorem poke_fault (a : Nat) (v : Byte) : (s.poke a v).fault = s.fault := rfl
@[simp] theorem poke_env (a : Nat) (v : Byte) : (s.poke a v).env = s.env := rfl

/-! ### `push` -/

@[simp] theorem push_cfg (w : Word) : (s.push w).cfg = s.cfg := rfl
@[simp] theorem push_mem (w : Word) : (s.push w).mem = s.mem := rfl
@[simp] theorem push_pc (w : Word) : (s.push w).pc = s.pc := rfl
@[simp] theorem push_I (w : Word) : (s.push w).I = s.I := rfl
@[simp] theorem push_V (w : Word) : (s.push w).V = s.V := rfl
@[simp] theorem push_stack (w : Word) : (s.push w).stack = s.stack.set s.sp w := rfl
@[simp] theorem push_sp (w : Word) : (s.push w).sp = s.sp + 1 := rfl
@[simp] theorem push_DT (w : Word) : (s.push w).DT = s.DT := rfl
@[simp] theorem push_ST (w : Word) : (s.push w).ST = s.ST := rfl
@[simp] theorem push_waitKey (w : Word) : (s.push w).waitKey = s.waitKey := rfl
@[simp] theorem push_fb (w : Word) : (s.push w).fb = s.fb := rfl
@[simp] theorem push_fault (w : Word) : (s.push w).fault = s.fault := rfl
@[simp] theorem push_env (w : Word) : (s.push w).env = s.env := rfl

/-! ### `pop` -/

@[simp] theorem pop_cfg : (s.pop).cfg = s.cfg := rfl
@[simp] theorem pop_mem : (s.pop).mem = s.mem := rfl
@[simp] theorem pop_pc : (s.pop).pc = s.pc := rfl
@[simp] theorem pop_I : (s.pop).I = s.I := rfl
@[simp] theorem pop_V : (s.pop).V = s.V := rfl
@[simp] theorem pop_stack : (s.pop).stack = s.stack := rfl
@[simp] theorem pop_sp : (s.pop).sp = s.sp - 1 := rfl
@[simp] theorem pop_DT : (s.pop).DT = s.DT := rfl
@[simp] theorem pop_ST : (s.pop).ST = s.ST := rfl
@[simp] theorem pop_waitKey : (s.pop).waitKey = s.waitKey := rfl
@[simp] theorem pop_fb : (s.pop).fb = s.fb := rfl
@[simp] theorem pop_fault : (s.pop).fault = s.fault := rfl
@[simp] theorem pop_env : (s.pop).env = s.env := rfl

/-! ### `emit` -/

@[simp] theorem emit_cfg (o : Output) : (s.emit o).cfg = s.cfg := rfl
@[simp] theorem emit_mem (o : Output) : (s.emit o).mem = s.mem := rfl
@[simp] theorem emit_pc (o : Output) : (s.emit o).pc = s.pc := rfl
@[simp] theorem emit_I (o : Output) : (s.emit o).I = s.I := rfl
@[simp] theorem emit_V (o : Output) : (s.emit o).V = s.V := rfl
@[simp] theorem emit_stack (o : Output) : (s.emit o).stack = s.stack := rfl
@[simp] theorem emit_sp (o : Output) : (s.emit o).sp = s.sp := rfl
@[simp] theorem emit_DT (o : Output) : (s.emit o).DT = s.DT := rfl
@[simp] theorem emit_ST (o : Output) : (s.emit o).ST = s.ST := rfl
@[simp] theorem emit_waitKey (o : Output) : (s.emit o).waitKey = s.waitKey := rfl
@[simp] theorem emit_fb (o : Output) : (s.emit o).fb = s.fb := rfl
@[simp] theorem emit_fault (o : Output) : (s.emit o).fault = s.fault := rfl

/-! ### `afterRnd` -/

@[simp] theorem afterRnd_cfg : (s.afterRnd).cfg = s.cfg := rfl
@[simp] theorem afterRnd_mem : (s.afterRnd).mem = s.mem := rfl
@[simp] theorem afterRnd_pc : (s.afterRnd).pc = s.pc := rfl
@[simp] theorem afterRnd_I : (s.afterRnd).I = s.I := rfl
@[simp] theorem afterRnd_V : (s.afterRnd).V = s.V := rfl
@[simp] theorem afterRnd_stack : (s.afterRnd).stack = s.stack := rfl
@[simp] theorem afterRnd_sp : (s.afterRnd).sp = s.sp := rfl
@[simp] theorem afterRnd_DT : (s.afterRnd).DT = s.DT := rfl
@[simp] theorem afterRnd_ST : (s.afterRnd).ST = s.ST := rfl
@[simp] theorem afterRnd_waitKey : (s.afterRnd).waitKey = s.waitKey := rfl
@[simp] theorem afterRnd_fb : (s.afterRnd).fb = s.fb := rfl
@[simp] theorem afterRnd_fault : (s.afterRnd).fault = s.fault := rfl

/-! ### `afterKey` -/

@[simp] theorem afterKey_cfg : (s.afterKey).cfg = s.cfg := rfl
@[simp] theorem afterKey_mem : (s.afterKey).mem = s.mem := rfl
@[simp] theorem afterKey_pc : (s.afterKey).pc = s.pc := rfl
@[simp] theorem afterKey_I : (s.afterKey).I = s.I := rfl
@[simp] theorem afterKey_V : (s.afterKey).V = s.V := rfl
@[simp] theorem afterKey_stack : (s.afterKey).stack = s.stack := rfl
@[simp] theorem afterKey_sp : (s.afterKey).sp = s.sp := rfl
@[simp] theorem afterKey_DT : (s.afterKey).DT = s.DT := rfl
@[simp] theorem afterKey_ST : (s.afterKey).ST = s.ST := rfl
@[simp] theorem afterKey_waitKey : (s.afterKey).waitKey = s.waitKey := rfl
@[simp] theorem afterKey_fb : (s.afterKey).fb = s.fb := rfl
@[simp] theorem afterKey_fault : (s.afterKey).fault = s.fault := rfl

/-! ### `afterPresent` -/

@[simp] theorem afterPresent_cfg : (s.afterPresent).cfg = s.cfg := rfl
@[simp] theorem afterPresent_mem : (s.afterPresent).mem = s.mem := rfl
@[simp] theorem afterPresent_pc : (s.afterPresent).pc = s.pc := rfl
@[simp] theorem afterPresent_I : (s.afterPresent).I = s.I := rfl
@[simp] theorem afterPresent_V : (s.afterPresent).V = s.V := rfl
@[simp] theorem afterPresent_stack : (s.afterPresent).stack = s.stack := rfl
@[simp] theorem afterPresent_sp : (s.afterPresent).sp = s.sp := rfl
@[simp] theorem afterPresent_DT : (s.afterPresent).DT = s.DT := rfl
@[simp] theorem afterPresent_ST : (s.afterPresent).ST = s.ST := rfl
@[simp] theorem afterPresent_waitKey : (s.afterPresent).waitKey = s.waitKey := rfl
@[simp] theorem afterPresent_fb : (s.afterPresent).fb = s.fb := rfl
@[simp] theorem afterPresent_fault : (s.afterPresent).fault = s.fault := rfl

/-! ### `present` -/

@[simp] theorem present_cfg : (s.present).cfg = s.cfg := rfl
@[simp] theorem present_mem : (s.present).mem = s.mem := rfl
@[simp] theorem present_pc : (s.present).pc = s.pc := rfl
@[simp] theorem present_I : (s.present).I = s.I := rfl
@[simp] theorem present_V : (s.present).V = s.V := rfl
@[simp] theorem present_stack : (s.present).stack = s.stack := rfl
@[simp] theorem present_sp : (s.present).sp = s.sp := rfl
@[simp] theorem present_DT : (s.present).DT = s.DT := rfl
@[simp] theorem present_ST : (s.present).ST = s.ST := rfl
@[simp] theorem present_waitKey : (s.present).waitKey = s.waitKey := rfl
@[simp] theorem present_fb : (s.present).fb = s.fb := rfl
@[simp] theorem present_fault : (s.present).fault = presentFault s.presentAnswer s.ia s.fault := rfl
@[simp] theorem present_env : (s.present).env = s.afterPresent.env := rfl

/-! ### `toggle` -/

@[simp] theorem toggle_cfg (r c : Nat) : (s.toggle r c).cfg = s.cfg := rfl
@[simp] theorem toggle_mem (r c : Nat) : (s.toggle r c).mem = s.mem := rfl
@[simp] theorem toggle_pc (r c : Nat) : (s.toggle r c).pc = s.pc := rfl
@[simp] theorem toggle_I (r c : Nat) : (s.toggle r c).I = s.I := rfl
@[simp] theorem toggle_stack (r c : Nat) : (s.toggle r c).stack = s.stack := rfl
@[simp] theorem toggle_sp (r c : Nat) : (s.toggle r c).sp = s.sp := rfl
@[simp] theorem toggle_DT (r c : Nat) : (s.toggle r c).DT = s.DT := rfl
@[simp] theorem toggle_ST (r c : Nat) : (s.toggle r c).ST = s.ST := rfl
@[simp] theorem toggle_waitKey (r c : Nat) : (s.toggle r c).waitKey = s.waitKey := rfl
@[simp] theorem toggle_fb (r c : Nat) : (s.toggle r c).fb = flipPixel s.fb r c := rfl
@[simp] theorem toggle_fault (r c : Nat) : (s.toggle r c).fault = s.fault := rfl
@[simp] theorem toggle_env (r c : Nat) : (s.toggle r c).env = s.env := rfl

end Sys2Proof.Machine.State
end

