-- ==== Sys2Proof/Laws/Ops.lean ====
section
/-! SUPPORT. What each shared operation of `Machine/Ops.lean` and `Machine/Operands.lean` does, said
once. -/

namespace Sys2Proof.Machine.State

variable (s : State)

/-! ### Registers -/

theorem reg_eq (x : RegIdx) : s.reg x = s.V[x.toNat]'x.isLt := rfl

theorem reg_writeReg (x y : RegIdx) (b : Byte) :
    (s.writeReg x b).reg y = if y = x then b else s.reg y := by
  rw [reg_eq, reg_eq]
  simp only [writeReg_V, Vector.getElem_set]
  by_cases h : y = x
  · simp [h]
  · rw [if_neg h, if_neg]
    exact fun e => h (BitVec.eq_of_toNat_eq e.symm)

@[simp] theorem reg_writeReg_same (x : RegIdx) (b : Byte) : (s.writeReg x b).reg x = b := by
  simp [reg_writeReg]

theorem reg_writeReg_other {x y : RegIdx} (b : Byte) (h : y ≠ x) :
    (s.writeReg x b).reg y = s.reg y := by
  simp [reg_writeReg, h]

/-- Registers decide `V`. -/
theorem V_ext {s t : State} (h : ∀ x, s.reg x = t.reg x) : s.V = t.V := by
  refine Vector.ext fun i hi => ?_
  have := h (BitVec.ofNat 4 i)
  rw [reg_eq, reg_eq] at this
  simpa [Nat.mod_eq_of_lt hi] using this

theorem reg_congr {s t : State} (h : s.V = t.V) (x : RegIdx) : s.reg x = t.reg x := by
  unfold reg; rw [h]

/-! ### Memory -/

@[simp] theorem peek_poke_same (a : Nat) (v : Byte) : (s.poke a v).peek a = v :=
  Memory.read_write_same

theorem peek_poke_other {a b : Nat} (v : Byte) (h : b ≠ a) : (s.poke a v).peek b = s.peek b :=
  Memory.read_write_other h

theorem peek_congr {s t : State} (hc : s.cfg = t.cfg) (hm : s.mem = t.mem) (a : Nat) :
    s.peek a = t.peek a := by
  unfold peek; rw [hc, hm]

/-- `pokeMany` writes memory and nothing else. -/
theorem pokeMany_eq (a : Nat) (bs : List Byte) :
    pokeMany a bs s = { s with mem := (pokeMany a bs s).mem } := by
  induction bs generalizing a s with
  | nil => rfl
  | cons b bs ih => simp only [pokeMany]; rw [ih]; rfl

@[simp] theorem pokeMany_cfg (a : Nat) (bs : List Byte) : (pokeMany a bs s).cfg = s.cfg := by
  rw [pokeMany_eq]

@[simp] theorem pokeMany_pc (a : Nat) (bs : List Byte) : (pokeMany a bs s).pc = s.pc := by
  rw [pokeMany_eq]

@[simp] theorem pokeMany_I (a : Nat) (bs : List Byte) : (pokeMany a bs s).I = s.I := by
  rw [pokeMany_eq]

@[simp] theorem pokeMany_V (a : Nat) (bs : List Byte) : (pokeMany a bs s).V = s.V := by
  rw [pokeMany_eq]

@[simp] theorem pokeMany_stack (a : Nat) (bs : List Byte) : (pokeMany a bs s).stack = s.stack := by
  rw [pokeMany_eq]

@[simp] theorem pokeMany_sp (a : Nat) (bs : List Byte) : (pokeMany a bs s).sp = s.sp := by
  rw [pokeMany_eq]

@[simp] theorem pokeMany_DT (a : Nat) (bs : List Byte) : (pokeMany a bs s).DT = s.DT := by
  rw [pokeMany_eq]

@[simp] theorem pokeMany_ST (a : Nat) (bs : List Byte) : (pokeMany a bs s).ST = s.ST := by
  rw [pokeMany_eq]

@[simp] theorem pokeMany_waitKey (a : Nat) (bs : List Byte) : (pokeMany a bs s).waitKey = s.waitKey := by
  rw [pokeMany_eq]

@[simp] theorem pokeMany_fb (a : Nat) (bs : List Byte) : (pokeMany a bs s).fb = s.fb := by
  rw [pokeMany_eq]

@[simp] theorem pokeMany_fault (a : Nat) (bs : List Byte) : (pokeMany a bs s).fault = s.fault := by
  rw [pokeMany_eq]

@[simp] theorem pokeMany_env (a : Nat) (bs : List Byte) : (pokeMany a bs s).env = s.env := by
  rw [pokeMany_eq]

theorem peek_pokeMany_outside (a : Nat) (bs : List Byte) {b : Nat}
    (h : b < a ∨ a + bs.length ≤ b) : (pokeMany a bs s).peek b = s.peek b := by
  induction bs generalizing a s with
  | nil => rfl
  | cons v bs ih =>
    simp only [List.length_cons] at h
    rw [pokeMany, ih _ _ (by omega), peek_poke_other _ _ (by omega)]

theorem peek_pokeMany_inside (a : Nat) (bs : List Byte) {i : Nat} (h : i < bs.length) :
    (pokeMany a bs s).peek (a + i) = bs[i] := by
  induction bs generalizing a s i with
  | nil => simp at h
  | cons v bs ih =>
    rw [pokeMany]
    cases i with
    | zero => rw [Nat.add_zero, peek_pokeMany_outside _ _ _ (by omega)]; simp
    | succ i =>
      rw [show a + (i + 1) = a + 1 + i by omega, ih _ _ (by simpa using h)]
      rfl

/-- Storing inside `mem` keeps the memory's canonical form. -/
theorem wf_pokeMany (a : Nat) (bs : List Byte) (hm : Memory.wf s.cfg s.mem)
    (ha : a + bs.length ≤ s.cfg.memSize) :
    Memory.wf (pokeMany a bs s).cfg (pokeMany a bs s).mem := by
  induction bs generalizing a s with
  | nil => exact hm
  | cons v bs ih =>
    simp only [List.length_cons] at ha
    exact ih _ _ (Memory.wf_write (cfg := s.cfg) hm (by omega)) (by simp only [poke_cfg]; omega)

@[simp] theorem length_peekMany (a n : Nat) : (s.peekMany a n).length = n := by
  induction n generalizing a with
  | zero => rfl
  | succ n ih => simp [peekMany, ih]

theorem getElem_peekMany (a n : Nat) {i : Nat} (h : i < (s.peekMany a n).length) :
    (s.peekMany a n)[i] = s.peek (a + i) := by
  induction n generalizing a i with
  | zero => simp [peekMany] at h
  | succ n ih =>
    cases i with
    | zero => rfl
    | succ i =>
      have : (s.peekMany a (n + 1))[i + 1] = (s.peekMany (a + 1) n)[i]'(by simpa using h) := rfl
      rw [this, ih]; congr 1; omega

/-- R52: inside `mem` the primitives are `peek` and `poke`. -/
theorem memRead_of_lt {a : Nat} (h : a < s.cfg.memSize) : s.memRead a = .ok (s.peek a) := if_pos h

theorem memRead_of_ge {a : Nat} (h : s.cfg.memSize ≤ a) :
    s.memRead a = .error (.memoryOutOfRange a) := if_neg (by omega)

theorem memWrite_of_lt {a : Nat} (v : Byte) (h : a < s.cfg.memSize) :
    s.memWrite a v = .ok (s.poke a v) := if_pos h

/-! ### The bounds check before a span access -/

theorem spanFault_eq_none {s : State} {last : Nat} : s.spanFault last = none ↔ last < s.cfg.memSize := by
  unfold spanFault; split <;> simp <;> omega

theorem spanFault_of_ge {last : Nat} (h : s.cfg.memSize ≤ last) :
    s.spanFault last = some (.memoryOutOfRange (max s.I.toNat s.cfg.memSize)) := if_pos h

theorem spanFault_some {s : State} {last : Nat} {f : Fault} (h : s.spanFault last = some f) :
    f = .memoryOutOfRange (max s.I.toNat s.cfg.memSize) ∧ s.cfg.memSize ≤ last := by
  unfold spanFault at h
  split at h
  · cases h; exact ⟨rfl, by assumption⟩
  · cases h

/-! ### The register range of FX55 and FX65 -/

@[simp] theorem length_regsBelow (n : Nat) : (s.regsBelow n).length = n := by simp [regsBelow]

theorem getElem_regsBelow (n : Nat) {i : Nat} (h : i < (s.regsBelow n).length) :
    (s.regsBelow n)[i] = s.reg (BitVec.ofNat 4 i) := by simp [regsBelow]

/-- `writeRegsFrom` writes registers and nothing else. -/
theorem writeRegsFrom_eq (i : Nat) (bs : List Byte) :
    writeRegsFrom i bs s = { s with V := (writeRegsFrom i bs s).V } := by
  induction bs generalizing i s with
  | nil => rfl
  | cons b bs ih => simp only [writeRegsFrom]; rw [ih]; rfl

@[simp] theorem writeRegsFrom_cfg (i : Nat) (bs : List Byte) :
    (writeRegsFrom i bs s).cfg = s.cfg := by rw [writeRegsFrom_eq]

@[simp] theorem writeRegsFrom_pc (i : Nat) (bs : List Byte) :
    (writeRegsFrom i bs s).pc = s.pc := by rw [writeRegsFrom_eq]

@[simp] theorem writeRegsFrom_I (i : Nat) (bs : List Byte) :
    (writeRegsFrom i bs s).I = s.I := by rw [writeRegsFrom_eq]

@[simp] theorem writeRegsFrom_mem (i : Nat) (bs : List Byte) :
    (writeRegsFrom i bs s).mem = s.mem := by rw [writeRegsFrom_eq]

@[simp] theorem writeRegsFrom_stack (i : Nat) (bs : List Byte) :
    (writeRegsFrom i bs s).stack = s.stack := by rw [writeRegsFrom_eq]

@[simp] theorem writeRegsFrom_sp (i : Nat) (bs : List Byte) :
    (writeRegsFrom i bs s).sp = s.sp := by rw [writeRegsFrom_eq]

@[simp] theorem writeRegsFrom_DT (i : Nat) (bs : List Byte) :
    (writeRegsFrom i bs s).DT = s.DT := by rw [writeRegsFrom_eq]

@[simp] theorem writeRegsFrom_ST (i : Nat) (bs : List Byte) :
    (writeRegsFrom i bs s).ST = s.ST := by rw [writeRegsFrom_eq]

@[simp] theorem writeRegsFrom_waitKey (i : Nat) (bs : List Byte) :
    (writeRegsFrom i bs s).waitKey = s.waitKey := by rw [writeRegsFrom_eq]

@[simp] theorem writeRegsFrom_fb (i : Nat) (bs : List Byte) :
    (writeRegsFrom i bs s).fb = s.fb := by rw [writeRegsFrom_eq]

@[simp] theorem writeRegsFrom_fault (i : Nat) (bs : List Byte) :
    (writeRegsFrom i bs s).fault = s.fault := by rw [writeRegsFrom_eq]

@[simp] theorem writeRegsFrom_env (i : Nat) (bs : List Byte) :
    (writeRegsFrom i bs s).env = s.env := by rw [writeRegsFrom_eq]

theorem reg_writeRegsFrom_outside (i : Nat) (bs : List Byte) (hi : i + bs.length ≤ 16)
    {r : RegIdx} (h : r.toNat < i ∨ i + bs.length ≤ r.toNat) :
    (writeRegsFrom i bs s).reg r = s.reg r := by
  induction bs generalizing i s with
  | nil => rfl
  | cons b bs ih =>
    simp only [List.length_cons] at h hi
    rw [writeRegsFrom, ih _ _ (by omega) (by omega), reg_writeReg_other]
    rintro rfl
    simp only [BitVec.toNat_ofNat] at h
    omega

theorem reg_writeRegsFrom_inside (i : Nat) (bs : List Byte) (hi : i + bs.length ≤ 16)
    {r : RegIdx} {j : Nat} (hj : j < bs.length) (h : r.toNat = i + j) :
    (writeRegsFrom i bs s).reg r = bs[j] := by
  induction bs generalizing i s j with
  | nil => simp at hj
  | cons b bs ih =>
    simp only [List.length_cons] at hj hi
    rw [writeRegsFrom]
    cases j with
    | zero =>
      rw [reg_writeRegsFrom_outside _ _ _ (by omega) (by omega)]
      have : r = BitVec.ofNat 4 i := BitVec.eq_of_toNat_eq (by simp; omega)
      simp [this]
    | succ j =>
      rw [ih (j := j) _ (i + 1) (by omega) (by omega) (by omega)]
      rfl

end Sys2Proof.Machine.State

namespace Sys2Proof.Machine

/-! ### Everything the span-checked transfers can do -/

variable {s t : State} {x : RegIdx}

theorem execLdBVx_cases (h : execLdBVx x s = .next t) :
    (∃ f, s.spanFault (s.ea 2) = some f ∧ t = s.raise f) ∨
    (s.spanFault (s.ea 2) = none ∧ t = State.pokeMany (s.ea 0) (bcdDigits (s.reg x)) s) := by
  unfold execLdBVx at h
  cases hf : s.spanFault (s.ea 2) with
  | some f => rw [hf] at h; cases h; exact .inl ⟨f, rfl, rfl⟩
  | none => rw [hf] at h; cases h; exact .inr ⟨rfl, rfl⟩

theorem execLdMemVx_cases (h : execLdMemVx x s = .next t) :
    (∃ f, s.spanFault (s.ea x.toNat) = some f ∧ t = s.raise f) ∨
    (s.spanFault (s.ea x.toNat) = none ∧
      t = (State.pokeMany (s.ea 0) (s.regsBelow (x.toNat + 1)) s).advanceI x) := by
  unfold execLdMemVx at h
  cases hf : s.spanFault (s.ea x.toNat) with
  | some f => rw [hf] at h; cases h; exact .inl ⟨f, rfl, rfl⟩
  | none => rw [hf] at h; cases h; exact .inr ⟨rfl, rfl⟩

theorem execLdVxMem_cases (h : execLdVxMem x s = .next t) :
    (∃ f, s.spanFault (s.ea x.toNat) = some f ∧ t = s.raise f) ∨
    (s.spanFault (s.ea x.toNat) = none ∧
      t = (State.writeRegsFrom 0 (s.peekMany (s.ea 0) (x.toNat + 1)) s).advanceI x) := by
  unfold execLdVxMem at h
  cases hf : s.spanFault (s.ea x.toNat) with
  | some f => rw [hf] at h; cases h; exact .inl ⟨f, rfl, rfl⟩
  | none => rw [hf] at h; cases h; exact .inr ⟨rfl, rfl⟩

end Sys2Proof.Machine
end

