-- ==== Sys2Proof/Laws/Control.lean ====
section
/-! SUPPORT. Everything the conditional meanings of control transfer and of the keypad can do. -/

namespace Sys2Proof.Machine

variable {s t : State} {x : RegIdx}

theorem execRet_cases (h : execRet s = .next t) :
    (s.sp = 0 ∧ t = s.raise (.stackUnderflow s.ia)) ∨
    (0 < s.sp ∧ t = s.pop.setPc (s.stackAt (s.sp - 1))) := by
  unfold execRet at h
  split at h
  · cases h; exact .inl ⟨by assumption, rfl⟩
  · cases h; exact .inr ⟨by omega, rfl⟩

theorem execCall_cases {nnn : Imm12} (h : execCall nnn s = .next t) :
    (s.cfg.stackDepth ≤ s.sp ∧ t = s.raise (.stackOverflow s.ia)) ∨
    (s.sp < s.cfg.stackDepth ∧ t = (s.push s.pc).setPc (zextImm nnn)) := by
  unfold execCall at h
  split at h
  · cases h; exact .inl ⟨by assumption, rfl⟩
  · cases h; exact .inr ⟨by omega, rfl⟩

theorem skipOnKey_cases (s : State) (x : RegIdx) (want : Bool) :
    (15 < (s.reg x).toNat ∧ s.skipOnKey x want = s.raise (.keyIndexOutOfRange (s.reg x))) ∨
    ((s.reg x).toNat ≤ 15 ∧ ∃ taken, s.skipOnKey x want = s.afterKey.skipIf taken) := by
  unfold State.skipOnKey
  split
  · exact .inl ⟨by assumption, rfl⟩
  · exact .inr ⟨by omega, _, rfl⟩

theorem execLdVxK_cases (h : execLdVxK x s = .next t) :
    (s.waitKey = .notWaiting ∧ t = (s.setWaitKey .armed).setPc (s.pc - 2#16)) ∨
    (s.waitKey = .armed ∧ t = s.setPc (s.pc - 2#16)) ∨
    ∃ k, s.waitKey = .captured k ∧ t = (s.writeReg x (zextKey k)).setWaitKey .notWaiting := by
  unfold execLdVxK at h
  cases hw : s.waitKey with
  | notWaiting => rw [hw] at h; cases h; exact .inl ⟨rfl, rfl⟩
  | armed => rw [hw] at h; cases h; exact .inr (.inl ⟨rfl, rfl⟩)
  | captured k => rw [hw] at h; cases h; exact .inr (.inr ⟨k, rfl, rfl⟩)

/-- `Present()` either leaves the latch or sets `DisplayFlushFailure`. -/
theorem present_fault_cases (s : State) :
    s.present.fault = s.fault ∨ s.present.fault = some (.displayFlushFailure s.ia) := by
  rw [State.present_fault]; unfold presentFault; split
  · exact .inl rfl
  · exact .inr rfl

end Sys2Proof.Machine
end

