-- ==== Sys2Proof/Laws/Decode.lean ====
section
/-! SUPPORT. The fields of a word put together from fields, the word put together from its own
fields, and the two bytes of a word. -/

namespace Sys2Proof

variable (f x y n : Nibble) (nn : Byte) (nnn : Imm12) (op : Word)

@[simp] theorem fieldF_formatNNN : fieldF (formatNNN f nnn) = f := by
  apply BitVec.eq_of_getLsbD_eq; intro i hi
  simp only [fieldF, formatNNN, BitVec.getLsbD_append, BitVec.getLsbD_extractLsb']
  grind

@[simp] theorem fieldNNN_formatNNN : fieldNNN (formatNNN f nnn) = nnn := by
  apply BitVec.eq_of_getLsbD_eq; intro i hi
  simp only [fieldNNN, formatNNN, BitVec.getLsbD_append, BitVec.getLsbD_extractLsb']
  grind

@[simp] theorem fieldF_formatXNN : fieldF (formatXNN f x nn) = f := by
  apply BitVec.eq_of_getLsbD_eq; intro i hi
  simp only [fieldF, formatXNN, BitVec.getLsbD_append, BitVec.getLsbD_extractLsb']
  grind

@[simp] theorem fieldX_formatXNN : fieldX (formatXNN f x nn) = x := by
  apply BitVec.eq_of_getLsbD_eq; intro i hi
  simp only [fieldX, formatXNN, BitVec.getLsbD_append, BitVec.getLsbD_extractLsb']
  grind

@[simp] theorem fieldNN_formatXNN : fieldNN (formatXNN f x nn) = nn := by
  apply BitVec.eq_of_getLsbD_eq; intro i hi
  simp only [fieldNN, formatXNN, BitVec.getLsbD_append, BitVec.getLsbD_extractLsb']
  grind

@[simp] theorem fieldF_formatXYN : fieldF (formatXYN f x y n) = f := by
  apply BitVec.eq_of_getLsbD_eq; intro i hi
  simp only [fieldF, formatXYN, BitVec.getLsbD_append, BitVec.getLsbD_extractLsb']
  grind

@[simp] theorem fieldX_formatXYN : fieldX (formatXYN f x y n) = x := by
  apply BitVec.eq_of_getLsbD_eq; intro i hi
  simp only [fieldX, formatXYN, BitVec.getLsbD_append, BitVec.getLsbD_extractLsb']
  grind

@[simp] theorem fieldY_formatXYN : fieldY (formatXYN f x y n) = y := by
  apply BitVec.eq_of_getLsbD_eq; intro i hi
  simp only [fieldY, formatXYN, BitVec.getLsbD_append, BitVec.getLsbD_extractLsb']
  grind

@[simp] theorem fieldN_formatXYN : fieldN (formatXYN f x y n) = n := by
  apply BitVec.eq_of_getLsbD_eq; intro i hi
  simp only [fieldN, formatXYN, BitVec.getLsbD_append, BitVec.getLsbD_extractLsb']
  grind

/-- Format `NNN` loses no bit. -/
theorem formatNNN_fields : formatNNN (fieldF op) (fieldNNN op) = op := by
  apply BitVec.eq_of_getLsbD_eq; intro i hi
  simp only [fieldF, fieldNNN, formatNNN, BitVec.getLsbD_append, BitVec.getLsbD_extractLsb']
  grind

/-- Format `XNN` loses no bit. -/
theorem formatXNN_fields : formatXNN (fieldF op) (fieldX op) (fieldNN op) = op := by
  apply BitVec.eq_of_getLsbD_eq; intro i hi
  simp only [fieldF, fieldX, fieldNN, formatXNN, BitVec.getLsbD_append,
    BitVec.getLsbD_extractLsb']
  grind

/-- Format `XYN` loses no bit. -/
theorem formatXYN_fields :
    formatXYN (fieldF op) (fieldX op) (fieldY op) (fieldN op) = op := by
  apply BitVec.eq_of_getLsbD_eq; intro i hi
  simp only [fieldF, fieldX, fieldY, fieldN, formatXYN, BitVec.getLsbD_append,
    BitVec.getLsbD_extractLsb']
  grind

@[simp] theorem highByte_wordOfBytes (hi lo : Byte) : highByte (wordOfBytes hi lo) = hi := by
  apply BitVec.eq_of_getLsbD_eq; intro i h
  simp only [highByte, wordOfBytes, BitVec.getLsbD_append, BitVec.getLsbD_extractLsb']
  grind

@[simp] theorem lowByte_wordOfBytes (hi lo : Byte) : lowByte (wordOfBytes hi lo) = lo := by
  apply BitVec.eq_of_getLsbD_eq; intro i h
  simp only [lowByte, wordOfBytes, BitVec.getLsbD_append, BitVec.getLsbD_extractLsb']
  grind

/-- A word is its two bytes, the high one first. -/
@[simp] theorem wordOfBytes_bytes : wordOfBytes (highByte op) (lowByte op) = op := by
  apply BitVec.eq_of_getLsbD_eq; intro i hi
  simp only [wordOfBytes, highByte, lowByte, BitVec.getLsbD_append, BitVec.getLsbD_extractLsb']
  grind

/-- Decoding the two bytes of a word is decoding the word. -/
theorem instrOfWord_eq : instrOfWord op = (decode op).toOption := by
  simp only [instrOfWord, decodeBytes, wordOfBytes_bytes]
  cases decode op <;> rfl

/-- A table word of 16 bits is read as it stands. -/
theorem decodeTableWord_eq (w : Nat) :
    decodeTableWord 16 w = (decode (BitVec.ofNat 16 w)).toOption := by
  have : tableWord 16 w = BitVec.ofNat 16 w := by
    apply BitVec.eq_of_toNat_eq; simp [tableWord]
  rw [decodeTableWord, instrOfWord_eq, this]

end Sys2Proof
end

