-- ==== Sys2Proof/Laws/Display.lean ====
section
/-! SUPPORT. The framebuffer: reading after flipping one pixel, the grid's shape, and what a fold of
toggles over distinct pixels does (`Painted`), from which a whole draw follows. -/

namespace Sys2Proof.Machine

variable {cfg : Config} {g : Grid} {r c : Nat}

/-! ### Grids -/

theorem gridShape_darkGrid (cfg : Config) : gridShape cfg (darkGrid cfg) := by
  refine ⟨by simp [darkGrid], fun row h => ?_⟩
  rw [List.eq_of_mem_replicate h, List.length_replicate]

theorem pixelAt_darkGrid (cfg : Config) (r c : Nat) : pixelAt (darkGrid cfg) r c = false := by
  simp only [pixelAt, darkGrid, List.getD_eq_getElem?_getD, List.getElem?_replicate]
  split
  · simp only [Option.getD_some, List.getElem?_replicate]; split <;> rfl
  · rfl

theorem gridShape_flipPixel (h : gridShape cfg g) : gridShape cfg (flipPixel g r c) := by
  refine ⟨by simp [flipPixel, h.1], fun row hrow => ?_⟩
  obtain ⟨i, hi, rfl⟩ := List.getElem_of_mem hrow
  simp only [flipPixel, List.length_modify] at hi
  simp only [flipPixel, List.getElem_modify]
  split <;> simp [h.2 _ (List.getElem_mem hi)]

theorem pixelAt_eq_getElem (h : gridShape cfg g) (hr : r < cfg.height) (hc : c < cfg.width) :
    pixelAt g r c =
      (g[r]'(h.1 ▸ hr))[c]'(by rw [h.2 _ (List.getElem_mem _)]; exact hc) := by
  have hr' : r < g.length := h.1 ▸ hr
  have hc' : c < (g[r]).length := by rw [h.2 _ (List.getElem_mem _)]; exact hc
  simp [pixelAt, List.getD_eq_getElem?_getD, List.getElem?_eq_getElem hr',
    List.getElem?_eq_getElem hc']

/-- Inside the grid, flipping a pixel changes that pixel and no other. -/
theorem pixelAt_flipPixel (h : gridShape cfg g) {r' c' : Nat} (hr : r' < cfg.height)
    (hc : c' < cfg.width) :
    pixelAt (flipPixel g r c) r' c' =
      if r' = r ∧ c' = c then !pixelAt g r' c' else pixelAt g r' c' := by
  rw [pixelAt_eq_getElem (gridShape_flipPixel h) hr hc, pixelAt_eq_getElem h hr hc]
  simp only [flipPixel, List.getElem_modify]
  by_cases h1 : r = r'
  · by_cases h2 : c = c' <;> simp [h1, h2, eq_comm]
  · simp [h1, Ne.symm h1]

/-- A grid is decided by its pixels. -/
theorem grid_ext {g' : Grid} (h : gridShape cfg g) (h' : gridShape cfg g')
    (hp : ∀ r c, r < cfg.height → c < cfg.width → pixelAt g r c = pixelAt g' r c) : g = g' := by
  refine List.ext_getElem (h.1.trans h'.1.symm) fun r hr hr' => ?_
  refine List.ext_getElem ?_ fun c hc hc' => ?_
  · rw [h.2 _ (List.getElem_mem _), h'.2 _ (List.getElem_mem _)]
  · have hw : c < cfg.width := by rw [← h.2 _ (List.getElem_mem hr)]; exact hc
    have hh : r < cfg.height := h.1 ▸ hr
    rw [← pixelAt_eq_getElem h hh hw, ← pixelAt_eq_getElem h' hh hw]
    exact hp r c hh hw

/-! ### Toggling pixels -/

/-- `t` is `s` after toggling exactly the pixels of `P`, none twice: nothing but `fb` and VF is
written, and VF becomes 1 exactly when a pixel of `P` was lit, keeping its value otherwise. -/
structure Painted (P : Nat → Nat → Prop) (s t : State) : Prop where
  only : t = { s with V := t.V, fb := t.fb }
  shape : gridShape s.cfg t.fb
  regs : SameRegsBut [vf] s t
  pixels : ∀ r c, r < s.cfg.height → c < s.cfg.width →
    (t.pixel r c ≠ s.pixel r c ↔ P r c)
  flag : t.reg vf = 0x01#8 ∨ t.reg vf = s.reg vf
  flag_iff : t.reg vf = 0x01#8 ↔ s.reg vf = 0x01#8 ∨
    ∃ r c, r < s.cfg.height ∧ c < s.cfg.width ∧ s.pixel r c = true ∧ P r c

namespace Painted

variable {P Q : Nat → Nat → Prop} {s t u : State}

theorem sameCfg (h : Painted P s t) : t.cfg = s.cfg := by rw [h.only]
theorem sameMem (h : Painted P s t) : t.mem = s.mem := by rw [h.only]
theorem sameI (h : Painted P s t) : t.I = s.I := by rw [h.only]

/-- Nothing toggled. -/
theorem refl (hs : gridShape s.cfg s.fb) : Painted (fun _ _ => False) s s where
  only := rfl
  shape := hs
  regs _ _ := rfl
  pixels _ _ _ _ := by simp
  flag := .inr rfl
  flag_iff := by simp

/-- One set of pixels after another, disjoint from it. -/
theorem trans (h : Painted P s t) (k : Painted Q t u)
    (disjoint : ∀ r c, P r c → Q r c → False) : Painted (fun r c => P r c ∨ Q r c) s u where
  only := by rw [k.only, h.only]
  shape := by rw [← h.sameCfg]; exact k.shape
  regs r hr := (k.regs r hr).trans (h.regs r hr)
  pixels r c hr hc := by
    have hp := h.pixels r c hr hc
    have hq := k.pixels r c (h.sameCfg ▸ hr) (h.sameCfg ▸ hc)
    have hd := disjoint r c
    revert hp hq
    cases u.pixel r c <;> cases t.pixel r c <;> cases s.pixel r c <;> simp <;> tauto
  flag := by
    rcases k.flag with k | k
    · exact .inl k
    · rcases h.flag with h | h
      · exact .inl (k.trans h)
      · exact .inr (k.trans h)
  flag_iff := by
    rw [k.flag_iff, h.flag_iff]
    constructor
    · rintro ((h0 | ⟨r, c, hr, hc, hl, hP⟩) | ⟨r, c, hr, hc, hl, hQ⟩)
      · exact .inl h0
      · exact .inr ⟨r, c, hr, hc, hl, .inl hP⟩
      · rw [h.sameCfg] at hr hc
        have hp := h.pixels r c hr hc
        have : ¬ P r c := fun p => disjoint r c p hQ
        refine .inr ⟨r, c, hr, hc, ?_, .inr hQ⟩
        rw [← hl]; by_contra hne; exact this (hp.1 (Ne.symm hne))
    · rintro (h0 | ⟨r, c, hr, hc, hl, hP | hQ⟩)
      · exact .inl (.inl h0)
      · exact .inl (.inr ⟨r, c, hr, hc, hl, hP⟩)
      · have hp := h.pixels r c hr hc
        have : ¬ P r c := fun p => disjoint r c p hQ
        refine .inr ⟨r, c, h.sameCfg ▸ hr, h.sameCfg ▸ hc, ?_, hQ⟩
        rw [← hl]; by_contra hne; exact this (hp.1 hne)

theorem congr (h : Painted P s t) (e : ∀ r c, r < s.cfg.height → c < s.cfg.width → (P r c ↔ Q r c)) :
    Painted Q s t where
  only := h.only
  shape := h.shape
  regs := h.regs
  pixels r c hr hc := (h.pixels r c hr hc).trans (e r c hr hc)
  flag := h.flag
  flag_iff := by
    rw [h.flag_iff]
    refine or_congr Iff.rfl (exists_congr fun r => exists_congr fun c => ?_)
    constructor
    · rintro ⟨hr, hc, hl, hP⟩; exact ⟨hr, hc, hl, (e r c hr hc).1 hP⟩
    · rintro ⟨hr, hc, hl, hQ⟩; exact ⟨hr, hc, hl, (e r c hr hc).2 hQ⟩

/-- A fold of paintings of pairwise disjoint sets. -/
theorem foldl {α : Type} {f : State → α → State} {R : α → Nat → Nat → Prop} (l : List α)
    (nodup : l.Nodup) (disjoint : ∀ a b r c, a ≠ b → R a r c → R b r c → False)
    (hs : gridShape s.cfg s.fb)
    (each : ∀ a ∈ l, ∀ t, t.cfg = s.cfg → t.mem = s.mem → t.I = s.I → gridShape t.cfg t.fb →
      Painted (R a) t (f t a)) :
    Painted (fun r c => ∃ a ∈ l, R a r c) s (l.foldl f s) := by
  induction l generalizing s with
  | nil => exact (refl hs).congr fun r c _ _ => by simp
  | cons a l ih =>
    have h1 := each a (by simp) s rfl rfl rfl hs
    have h2 := ih (s := f s a) (List.nodup_cons.1 nodup).2 (by rw [h1.sameCfg]; exact h1.shape)
      fun b hb t hc hm hi => each b (by simp [hb]) t (hc.trans h1.sameCfg) (hm.trans h1.sameMem)
        (hi.trans h1.sameI)
    refine (h1.trans h2 ?_).congr fun r c _ _ => by simp
    rintro r c hP ⟨b, hb, hQ⟩
    exact disjoint a b r c (fun e => (List.nodup_cons.1 nodup).1 (e ▸ hb)) hP hQ

end Painted

/-- Toggling one pixel of the grid (R148). -/
theorem painted_toggle {s : State} (hs : gridShape s.cfg s.fb) (hr : r < s.cfg.height)
    (hc : c < s.cfg.width) : Painted (fun r' c' => r' = r ∧ c' = c) s (s.toggle r c) where
  only := rfl
  shape := gridShape_flipPixel hs
  regs x hx := by
    have hne : x ≠ vf := by simpa using hx
    by_cases hp : s.pixel r c = true
    · have : (s.toggle r c).reg x = (s.writeReg vf (flagByte true)).reg x :=
        State.reg_congr (by simp [State.toggle, hp]) x
      rw [this, State.reg_writeReg_other _ _ hne]
    · exact State.reg_congr (by simp [State.toggle, hp]) x
  pixels r' c' hr' hc' := by
    simp only [State.pixel, State.toggle_fb, pixelAt_flipPixel hs hr' hc']
    split <;> simp_all
  flag := by
    by_cases hp : s.pixel r c = true
    · left
      have : (s.toggle r c).reg vf = (s.writeReg vf (flagByte true)).reg vf :=
        State.reg_congr (by simp [State.toggle, hp]) _
      rw [this, State.reg_writeReg_same]; rfl
    · right; exact State.reg_congr (by simp [State.toggle, hp]) _
  flag_iff := by
    by_cases hp : s.pixel r c = true
    · have : (s.toggle r c).reg vf = (s.writeReg vf (flagByte true)).reg vf :=
        State.reg_congr (by simp [State.toggle, hp]) _
      rw [this, State.reg_writeReg_same]
      exact ⟨fun _ => .inr ⟨r, c, hr, hc, hp, rfl, rfl⟩, fun _ => rfl⟩
    · have : (s.toggle r c).reg vf = s.reg vf := State.reg_congr (by simp [State.toggle, hp]) _
      rw [this]
      refine ⟨.inl, ?_⟩
      rintro (h | ⟨r', c', -, -, hl, rfl, rfl⟩)
      · exact h
      · exact absurd hl hp

/-! ### What drawing writes, in every state -/

/-- `t` differs from `s` in the framebuffer and in VF, VF having become 1 if it changed at all. -/
def OnlyDrawn (s t : State) : Prop :=
  t = { s with V := t.V, fb := t.fb } ∧ SameRegsBut [vf] s t ∧
    (t.reg vf = 0x01#8 ∨ t.reg vf = s.reg vf)

theorem OnlyDrawn.refl (s : State) : OnlyDrawn s s := ⟨rfl, fun _ _ => rfl, .inr rfl⟩

theorem OnlyDrawn.trans {s t u : State} (h : OnlyDrawn s t) (k : OnlyDrawn t u) :
    OnlyDrawn s u := by
  refine ⟨by rw [k.1, h.1], fun r hr => (k.2.1 r hr).trans (h.2.1 r hr), ?_⟩
  rcases k.2.2 with k | k
  · exact .inl k
  · rw [k]; exact h.2.2

theorem onlyDrawn_foldl {α : Type} {f : State → α → State} (h : ∀ s a, OnlyDrawn s (f s a))
    (l : List α) (s : State) : OnlyDrawn s (l.foldl f s) := by
  induction l generalizing s with
  | nil => exact .refl s
  | cons a l ih => exact (h s a).trans (ih _)

theorem onlyDrawn_toggle (s : State) (r c : Nat) : OnlyDrawn s (s.toggle r c) := by
  by_cases hp : s.pixel r c = true
  · have h : ∀ x, (s.toggle r c).reg x = (s.writeReg vf (flagByte true)).reg x :=
      State.reg_congr (by simp [State.toggle, hp])
    refine ⟨rfl, fun x hx => ?_, .inl ?_⟩
    · rw [h, State.reg_writeReg_other _ _ (by simpa using hx)]
    · rw [h, State.reg_writeReg_same]; rfl
  · have h : ∀ x, (s.toggle r c).reg x = s.reg x :=
      State.reg_congr (by simp [State.toggle, hp])
    exact ⟨rfl, fun x _ => h x, .inr (h vf)⟩

theorem onlyDrawn_drawRow (x0 y0 : Nat) (s : State) (i : Nat) :
    OnlyDrawn s (State.drawRow x0 y0 s i) := by
  refine onlyDrawn_foldl (fun s j => ?_) _ _
  unfold State.drawPixel
  split
  · exact onlyDrawn_toggle _ _ _
  · exact .refl s

/-- A draw, present apart, writes nothing but the framebuffer and VF, and VF is left 0 or 1. -/
theorem onlyDrawn_drawSprite (s : State) (x y : RegIdx) (n : Nibble) :
    OnlyDrawn (s.writeReg vf (flagByte false)) (s.drawSprite x y n) :=
  onlyDrawn_foldl (onlyDrawn_drawRow _ _) _ _

theorem drawSprite_eq (s : State) (x y : RegIdx) (n : Nibble) :
    s.drawSprite x y n =
      { s with V := (s.drawSprite x y n).V, fb := (s.drawSprite x y n).fb } := by
  have h := (onlyDrawn_drawSprite s x y n).1
  rw [h]; rfl

theorem drawSprite_flag (s : State) (x y : RegIdx) (n : Nibble) :
    (s.drawSprite x y n).reg vf = 0x00#8 ∨ (s.drawSprite x y n).reg vf = 0x01#8 := by
  rcases (onlyDrawn_drawSprite s x y n).2.2 with h | h
  · exact .inr h
  · rw [h, State.reg_writeReg_same]; exact .inl rfl

theorem drawSprite_regs (s : State) (x y : RegIdx) (n : Nibble) :
    SameRegsBut [vf] s (s.drawSprite x y n) := fun r hr =>
  ((onlyDrawn_drawSprite s x y n).2.1 r hr).trans
    (State.reg_writeReg_other _ _ (by simpa using hr))

/-- Everything `DRW` can do: latch the memory fault, or draw and present. -/
theorem execDrw_cases {s t : State} {x y : RegIdx} {n : Nibble} (h : execDrw x y n s = .next t) :
    (∃ f, s.drawFault y n = some f ∧ t = s.raise f) ∨
    (s.drawFault y n = none ∧ t = (s.drawSprite x y n).present) := by
  unfold execDrw at h
  cases hf : s.drawFault y n with
  | some f => rw [hf] at h; cases h; exact .inl ⟨f, rfl, rfl⟩
  | none => rw [hf] at h; cases h; exact .inr ⟨rfl, rfl⟩

theorem drawFault_some {s : State} {y : RegIdx} {n : Nibble} {f : Fault}
    (h : s.drawFault y n = some f) :
    f = .memoryOutOfRange (max s.I.toNat s.cfg.memSize) ∧ 1 ≤ visibleRows s y n ∧
      s.cfg.memSize < s.I.toNat + visibleRows s y n := by
  have e : s.drawnRows y n = visibleRows s y n := rfl
  unfold State.drawFault at h
  split at h
  · cases h
  · unfold State.spanFault at h
    split at h
    · next h1 h2 => cases h; simp only [State.ea] at h2; exact ⟨rfl, by omega, by omega⟩
    · cases h

theorem drawFault_none {s : State} {y : RegIdx} {n : Nibble} :
    s.drawFault y n = none ↔
      visibleRows s y n = 0 ∨ s.I.toNat + visibleRows s y n ≤ s.cfg.memSize := by
  have e : s.drawnRows y n = visibleRows s y n := rfl
  unfold State.drawFault
  split
  · simp; omega
  · rw [State.spanFault_eq_none]; simp only [State.ea]; omega

/-- One sprite row inside the grid (R149). -/
theorem painted_drawRow {s : State} (hs : gridShape s.cfg s.fb) (x0 y0 i : Nat)
    (hr : y0 + i < s.cfg.height) :
    Painted (fun r c => ∃ j ∈ List.range 8, (r = y0 + i ∧ c = x0 + j) ∧
      spriteBit (s.peek (s.ea i)) j = true) s (State.drawRow x0 y0 s i) := by
  unfold State.drawRow
  generalize s.peek (s.ea i) = b
  refine Painted.foldl (R := fun j r c => (r = y0 + i ∧ c = x0 + j) ∧ spriteBit b j = true)
    _ List.nodup_range (fun j k r c hne h1 h2 => hne (by omega)) hs fun j _ t hc _ _ ht => ?_
  unfold State.drawPixel
  split
  · next h =>
    refine (painted_toggle ht (by rw [hc]; exact hr) h.2).congr fun r c _ _ => ?_
    simp [h.1]
  · next h =>
    refine (Painted.refl ht).congr fun r c _ hc' => ?_
    simp only [false_iff]
    rintro ⟨⟨rfl, rfl⟩, hb⟩
    exact h ⟨hb, hc'⟩

/-- The drawing after VF is cleared (R149): the pixels the sprite covers are toggled. -/
theorem painted_drawSprite {s : State} (hs : gridShape s.cfg s.fb) (x y : RegIdx) (n : Nibble) :
    Painted (SpriteCovers s x y n) (s.writeReg vf (flagByte false)) (s.drawSprite x y n) := by
  unfold State.drawSprite
  refine (Painted.foldl (s := s.writeReg vf (flagByte false)) (R := fun i r c => ∃ j ∈ List.range 8,
      (r = s.anchorY y + i ∧ c = s.anchorX x + j) ∧ spriteBit (s.peek (s.ea i)) j = true)
    _ List.nodup_range ?_ hs fun i hi t hc hm hI ht => ?_).congr fun r c hr _ => ?_
  · rintro i k r c hne ⟨j, -, ⟨h1, -⟩, -⟩ ⟨j', -, ⟨h2, -⟩, -⟩; omega
  · have hi' : s.anchorY y + i < s.cfg.height := by
      simp only [List.mem_range, State.drawnRows] at hi; omega
    have hp : t.peek (t.ea i) = s.peek (s.ea i) := by
      rw [State.peek_congr hc hm]
      simp only [State.ea, hI]; rfl
    have hcfg : t.cfg = s.cfg := hc
    rw [← hp]
    exact painted_drawRow ht _ _ _ (by rw [hcfg]; exact hi')
  · have hr' : r < s.cfg.height := hr
    simp only [SpriteCovers, List.mem_range, State.drawnRows, State.anchorY, State.anchorX,
      spriteBit, State.ea]
    constructor
    · rintro ⟨i, hi, j, hj, ⟨h1, h2⟩, hb⟩; exact ⟨i, j, by omega, hj, h1, h2, hb⟩
    · rintro ⟨i, j, hi, hj, h1, h2, hb⟩; exact ⟨i, by omega, j, hj, ⟨h1, h2⟩, hb⟩

end Sys2Proof.Machine
end

