-- ==== Sys2Proof/Laws/PerInstr.lean ====
section
/-! SUPPORT. One family of statements about every instruction as syntax: the row of the opcode map
(`30_encoding.md` R75) the instruction names is in the map, and its mask and pattern select the
instruction's encoding. -/

namespace Sys2Proof.Laws.TableRow

open Sys2Proof

/-- `i`'s row is one of the 35, and the encoding of `i` meets that row's mask and pattern. -/
def Statement (i : Instr) : Prop := i.row ∈ opcodeMap ∧ i.row.selects (encode i) = true

/-- Format `NNN`: the family nibble is the fixed part. -/
theorem mask_nnn (f : Nibble) (nnn : Imm12) : formatNNN f nnn &&& 0xF000#16 = f ++ 0x000#12 := by
  apply BitVec.eq_of_getLsbD_eq
  intro i hi
  simp only [formatNNN, BitVec.getLsbD_and, BitVec.getLsbD_append]
  interval_cases i <;> simp

/-- Format `XNN` with NN an operand. -/
theorem mask_xnn (f : Nibble) (x : RegIdx) (nn : Byte) : formatXNN f x nn &&& 0xF000#16 = f ++ 0x000#12 := by
  apply BitVec.eq_of_getLsbD_eq
  intro i hi
  simp only [formatXNN, BitVec.getLsbD_and, BitVec.getLsbD_append]
  interval_cases i <;> simp

/-- Format `XNN` with NN fixed. -/
theorem mask_xnn_low (f : Nibble) (x : RegIdx) (nn : Byte) : formatXNN f x nn &&& 0xF0FF#16 = f ++ (0x0#4 ++ nn) := by
  apply BitVec.eq_of_getLsbD_eq
  intro i hi
  simp only [formatXNN, BitVec.getLsbD_and, BitVec.getLsbD_append]
  interval_cases i <;> simp

/-- Format `XYN` with N an operand. -/
theorem mask_xyn (f : Nibble) (x y : RegIdx) (n : Nibble) : formatXYN f x y n &&& 0xF000#16 = f ++ 0x000#12 := by
  apply BitVec.eq_of_getLsbD_eq
  intro i hi
  simp only [formatXYN, BitVec.getLsbD_and, BitVec.getLsbD_append]
  interval_cases i <;> simp

/-- Format `XYN` with N fixed. -/
theorem mask_xyn_family8 (f : Nibble) (x y : RegIdx) (n : Nibble) : formatXYN f x y n &&& 0xF00F#16 = f ++ (0x00#8 ++ n) := by
  apply BitVec.eq_of_getLsbD_eq
  intro i hi
  simp only [formatXYN, BitVec.getLsbD_and, BitVec.getLsbD_append]
  interval_cases i <;> simp

/-- Every instruction's row is in the map. -/
theorem row_mem (i : Instr) : i.row ∈ opcodeMap := by
  have h : i.rowNumber < opcodeMap.length := by cases i <;> simp [Instr.rowNumber, opcodeMap,
    opcodeRowsLow, opcodeRowsFamily8, opcodeRowsMiddle, opcodeRowsFamilyF]
  rw [Instr.row, List.getD_eq_getElem _ _ h]
  exact List.getElem_mem h

/-- A row selects a word whose masked part is its pattern. -/
theorem selects_of_mask {row : OpcodeRow} {op : Word} (h : op &&& row.mask = row.pattern) :
    row.selects op = true := by
  simp [OpcodeRow.selects, h]

theorem cls : Statement .cls := ⟨row_mem _, by decide⟩

theorem ret : Statement .ret := ⟨row_mem _, by decide⟩

theorem sys (nnn : Imm12) : Statement (.sys nnn) :=
  ⟨row_mem _, selects_of_mask (mask_nnn ..)⟩

theorem jp (nnn : Imm12) : Statement (.jp nnn) :=
  ⟨row_mem _, selects_of_mask (mask_nnn ..)⟩

theorem call (nnn : Imm12) : Statement (.call nnn) :=
  ⟨row_mem _, selects_of_mask (mask_nnn ..)⟩

theorem seImm (x : RegIdx) (nn : Byte) : Statement (.seImm x nn) :=
  ⟨row_mem _, selects_of_mask (mask_xnn ..)⟩

theorem sneImm (x : RegIdx) (nn : Byte) : Statement (.sneImm x nn) :=
  ⟨row_mem _, selects_of_mask (mask_xnn ..)⟩

theorem seReg (x y : RegIdx) (n : Nibble) : Statement (.seReg x y n) :=
  ⟨row_mem _, selects_of_mask (mask_xyn ..)⟩

theorem ldImm (x : RegIdx) (nn : Byte) : Statement (.ldImm x nn) :=
  ⟨row_mem _, selects_of_mask (mask_xnn ..)⟩

theorem addImm (x : RegIdx) (nn : Byte) : Statement (.addImm x nn) :=
  ⟨row_mem _, selects_of_mask (mask_xnn ..)⟩

theorem ldReg (x y : RegIdx) : Statement (.ldReg x y) :=
  ⟨row_mem _, selects_of_mask (mask_xyn_family8 ..)⟩

theorem orReg (x y : RegIdx) : Statement (.orReg x y) :=
  ⟨row_mem _, selects_of_mask (mask_xyn_family8 ..)⟩

theorem andReg (x y : RegIdx) : Statement (.andReg x y) :=
  ⟨row_mem _, selects_of_mask (mask_xyn_family8 ..)⟩

theorem xorReg (x y : RegIdx) : Statement (.xorReg x y) :=
  ⟨row_mem _, selects_of_mask (mask_xyn_family8 ..)⟩

theorem addReg (x y : RegIdx) : Statement (.addReg x y) :=
  ⟨row_mem _, selects_of_mask (mask_xyn_family8 ..)⟩

theorem subReg (x y : RegIdx) : Statement (.subReg x y) :=
  ⟨row_mem _, selects_of_mask (mask_xyn_family8 ..)⟩

theorem shrReg (x y : RegIdx) : Statement (.shrReg x y) :=
  ⟨row_mem _, selects_of_mask (mask_xyn_family8 ..)⟩

theorem subnReg (x y : RegIdx) : Statement (.subnReg x y) :=
  ⟨row_mem _, selects_of_mask (mask_xyn_family8 ..)⟩

theorem shlReg (x y : RegIdx) : Statement (.shlReg x y) :=
  ⟨row_mem _, selects_of_mask (mask_xyn_family8 ..)⟩

theorem sneReg (x y : RegIdx) (n : Nibble) : Statement (.sneReg x y n) :=
  ⟨row_mem _, selects_of_mask (mask_xyn ..)⟩

theorem ldI (nnn : Imm12) : Statement (.ldI nnn) :=
  ⟨row_mem _, selects_of_mask (mask_nnn ..)⟩

theorem jpV0 (nnn : Imm12) : Statement (.jpV0 nnn) :=
  ⟨row_mem _, selects_of_mask (mask_nnn ..)⟩

theorem rnd (x : RegIdx) (nn : Byte) : Statement (.rnd x nn) :=
  ⟨row_mem _, selects_of_mask (mask_xnn ..)⟩

theorem drw (x y : RegIdx) (n : Nibble) : Statement (.drw x y n) :=
  ⟨row_mem _, selects_of_mask (mask_xyn ..)⟩

theorem skp (x : RegIdx) : Statement (.skp x) :=
  ⟨row_mem _, selects_of_mask (mask_xnn_low ..)⟩

theorem sknp (x : RegIdx) : Statement (.sknp x) :=
  ⟨row_mem _, selects_of_mask (mask_xnn_low ..)⟩

theorem ldVxDt (x : RegIdx) : Statement (.ldVxDt x) :=
  ⟨row_mem _, selects_of_mask (mask_xnn_low ..)⟩

theorem ldVxK (x : RegIdx) : Statement (.ldVxK x) :=
  ⟨row_mem _, selects_of_mask (mask_xnn_low ..)⟩

theorem ldDtVx (x : RegIdx) : Statement (.ldDtVx x) :=
  ⟨row_mem _, selects_of_mask (mask_xnn_low ..)⟩

theorem ldStVx (x : RegIdx) : Statement (.ldStVx x) :=
  ⟨row_mem _, selects_of_mask (mask_xnn_low ..)⟩

theorem addIVx (x : RegIdx) : Statement (.addIVx x) :=
  ⟨row_mem _, selects_of_mask (mask_xnn_low ..)⟩

theorem ldFVx (x : RegIdx) : Statement (.ldFVx x) :=
  ⟨row_mem _, selects_of_mask (mask_xnn_low ..)⟩

theorem ldBVx (x : RegIdx) : Statement (.ldBVx x) :=
  ⟨row_mem _, selects_of_mask (mask_xnn_low ..)⟩

theorem ldMemVx (x : RegIdx) : Statement (.ldMemVx x) :=
  ⟨row_mem _, selects_of_mask (mask_xnn_low ..)⟩

theorem ldVxMem (x : RegIdx) : Statement (.ldVxMem x) :=
  ⟨row_mem _, selects_of_mask (mask_xnn_low ..)⟩

end Sys2Proof.Laws.TableRow
end

