-- ==== Sys2Proof/Laws/Step.lean ====
section
/-! SUPPORT. What a step can do, said once (`front` and `step`), and what the two conventions of the
model about stepping give: a finished program stays where it is, and the word laid down runs. -/

namespace Sys2Proof.Machine

variable {s t : State}

/-- R91, inside `mem`. -/
theorem fetch_of_fetchable (h : s.Fetchable) :
    s.fetch = .ok (s.peek s.pc.toNat ++ s.peek (s.pc.toNat + 1)) := by
  have h' : s.pc.toNat + 1 < s.cfg.memSize := h
  simp only [State.fetch, State.memRead_of_lt s (show s.pc.toNat < s.cfg.memSize by omega),
    State.memRead_of_lt s h', wordOfBytes]

theorem fetch_first_outside (h : s.cfg.memSize ≤ s.pc.toNat) :
    s.fetch = .error (.memoryOutOfRange s.pc.toNat) := by
  simp only [State.fetch, State.memRead_of_ge s h]

theorem fetch_second_outside (h : s.pc.toNat < s.cfg.memSize)
    (h' : s.cfg.memSize ≤ s.pc.toNat + 1) :
    s.fetch = .error (.memoryOutOfRange (s.pc.toNat + 1)) := by
  simp only [State.fetch, State.memRead_of_lt s h, State.memRead_of_ge s h']

/-- A latched core does nothing (R96). -/
theorem step_of_latched {f : Fault} (h : s.fault = some f) : step s = .next s := by
  simp only [step, State.front, h]

theorem step_of_fetch_error {f : Fault} (h : s.fault = none) (hf : s.fetch = .error f) :
    step s = .next (s.raise f) := by
  simp only [step, State.front, h, hf]

theorem step_of_decode_ok {op : Word} {i : Instr} (h : s.fault = none) (hf : s.fetch = .ok op)
    (hd : decode op = .ok i) : step s = exec i s.advance := by
  simp only [step, State.front, h, hf, hd]

theorem step_of_decode_error {op : Word} {e : Reject} (h : s.fault = none)
    (hf : s.fetch = .ok op) (hd : decode op = .error e) :
    step s = execUnknown op s.advance := by
  simp only [step, State.front, h, hf, hd]

/-- Everything a step can do: nothing (latched), latch a fetch fault, run an instruction, pass over
an unknown word. -/
theorem step_cases (h : step s = .next t) :
    (∃ f, s.fault = some f ∧ t = s) ∨
    (∃ f, s.fault = none ∧ s.fetch = .error f ∧ t = s.raise f) ∨
    (∃ op i, s.fault = none ∧ s.fetch = .ok op ∧ decode op = .ok i ∧
      exec i s.advance = .next t) ∨
    ∃ op e, s.fault = none ∧ s.fetch = .ok op ∧ decode op = .error e ∧
      t = s.advance.diag .unknownOpcode op := by
  cases hs : s.fault with
  | some f => rw [step_of_latched hs] at h; cases h; exact .inl ⟨f, rfl, rfl⟩
  | none =>
    right
    cases hf : s.fetch with
    | error f => rw [step_of_fetch_error hs hf] at h; cases h; exact .inl ⟨f, rfl, rfl, rfl⟩
    | ok op =>
      right
      cases hd : decode op with
      | ok i =>
        rw [step_of_decode_ok hs hf hd] at h
        exact .inl ⟨op, i, rfl, rfl, hd, h⟩
      | error e =>
        rw [step_of_decode_error hs hf hd] at h
        cases h
        exact .inr ⟨op, e, rfl, rfl, hd, rfl⟩

/-- The advance of R92, seen from inside the instruction: `ia` is where the word was fetched. -/
@[simp] theorem ia_advance : s.advance.ia = s.pc := by
  simp [State.ia, State.advance]

/-- R98: a finished program stays as it is. -/
theorem step_of_finished (h : s.Finished) : step s = .next s := by
  obtain ⟨hs, nnn, hf, hpc⟩ := h
  have hd : decode (encode (.jp nnn)) = .ok (.jp nnn) := by simp [decode, encode]
  rw [step_of_decode_ok hs hf hd]
  show Host.Outcome.next (s.advance.setPc (zextImm nnn)) = .next s
  rw [hpc]; rfl

/-- Log entry 8: for a legal configuration the next step runs the word `withFetchWord` lays down. -/
theorem step_withFetchWord {w : Nat} {i : Instr} (hc : s.cfg.Legal)
    (hd : decode (BitVec.ofNat 16 w) = .ok i) :
    step (s.withFetchWord 16 w) = exec i (s.withFetchWord 16 w).advance := by
  have hw : tableWord 16 w = BitVec.ofNat 16 w := by
    apply BitVec.eq_of_toNat_eq; simp [tableWord]
  unfold State.withFetchWord State.placeWord
  rw [hw]
  generalize BitVec.ofNat 16 w = op at hd
  have hentry : s.entry.toNat + 1 < s.cfg.memSize := by
    unfold State.entry
    split
    · assumption
    · have := hc.1; simp; omega
  refine step_of_decode_ok rfl ?_ hd
  have hbytes := fun i => State.peek_pokeMany_inside (s.setPc s.entry) s.entry.toNat
    [highByte op, lowByte op] (i := i)
  have h0 : (State.pokeMany s.entry.toNat [highByte op, lowByte op] (s.setPc s.entry)).peek
    s.entry.toNat = highByte op := hbytes 0 (by simp)
  have h1 := hbytes 1 (by simp)
  rw [fetch_of_fetchable (by simpa [State.Fetchable] using hentry)]
  simp only [State.pokeMany_pc, State.setPc_pc]
  refine congrArg Except.ok (Eq.trans ?_ (wordOfBytes_bytes op))
  exact congrArg₂ (· ++ ·) h0 h1

end Sys2Proof.Machine
end

