-- ==== Sys2Proof/Tests/Slice0.lean ====
section
/-! SUPPORT. Tests of one step each and the witnesses of the statements' hypotheses. Expected values
are the spec's: the bit strings of `spec/opcode_table.json`, the vectors of `95_test_vectors.md`
(named in each docstring), hand calculation from a named rule. -/

namespace Sys2Proof.Tests

open Sys2Proof Sys2Proof.Machine

/-! ### Helpers -/

/-- The reset state with an environment that has two `ok` answers to `Present()` laid down. -/
def start : State :=
  { State.reset with env := { Env.silent with presentAnswers := [.ok, .ok] } }

/-- The state after one step. -/
def stepped (s : State) : State :=
  match step s with
  | .next t => t
  | _ => s

/-- One step with `op` laid down at `pc`. -/
def run (op : Word) (s : State) : State := stepped (s.placeWord op)

/-- Whether an outcome is a next state. -/
def completes (o : Host.Outcome State Fault Refusal) : Bool :=
  match o with
  | .next _ => true
  | _ => false

theorem exists_next {o : Host.Outcome State Fault Refusal} (h : completes o = true) :
    ∃ t, o = .next t := by
  cases o with
  | next t => exact ⟨t, rfl⟩
  | fault f => cases h
  | refused r => cases h

/-- `start` with register values. -/
def withRegs (l : List (RegIdx × Byte)) : State := l.foldl (fun s p => s.writeReg p.1 p.2) start

/-- The registers listed hold the values listed. -/
def holds (l : List (RegIdx × Byte)) (s : State) : Bool := l.all fun p => s.reg p.1 == p.2

/-! ### Well-formed terms (R75 row 3) -/

/-- The two terms that stand for no instruction: their words are `CLS` and `RET`. -/
theorem test_ill_formed_terms_refused :
    Instr.wellFormed (.sys 0x0E0#12) = false ∧ Instr.wellFormed (.sys 0x0EE#12) = false := by decide

/-- Every width is carried by the types, so nothing else is refused; N of 5XYN and 9XYN is free. -/
theorem test_well_formed_terms_accepted :
    Instr.wellFormed (.sys 0x0E1#12) = true ∧ Instr.wellFormed (.sys 0x1E0#12) = true ∧
      Instr.wellFormed (.seReg 1 2 7) = true ∧ Instr.canonical (.seReg 1 2 7) = false := by decide

/-! ### Decoding, one word to a constructor, bits as the opcode table spells them -/

theorem test_decode_system :
    decode 0b0000000011100000#16 = .ok .cls ∧ decode 0b0000000011101110#16 = .ok .ret ∧
    decode 0b0000000100100011#16 = .ok (.sys 0x123#12) := by decide

theorem test_decode_flow :
    decode 0b0001001000110100#16 = .ok (.jp 0x234#12) ∧
    decode 0b0010001000001010#16 = .ok (.call 0x20A#12) ∧
    decode 0b1011001000000000#16 = .ok (.jpV0 0x200#12) := by decide

theorem test_decode_skips :
    decode 0b0011001100101010#16 = .ok (.seImm 0x3#4 0x2A#8) ∧
    decode 0b0100001100101011#16 = .ok (.sneImm 0x3#4 0x2B#8) ∧
    decode 0b0101000100100111#16 = .ok (.seReg 0x1#4 0x2#4 0x7#4) ∧
    decode 0b1001000100101111#16 = .ok (.sneReg 0x1#4 0x2#4 0xF#4) := by decide

theorem test_decode_immediates :
    decode 0b0110101000010100#16 = .ok (.ldImm 0xA#4 0x14#8) ∧
    decode 0b0111101000000101#16 = .ok (.addImm 0xA#4 0x05#8) ∧
    decode 0b1010001000001010#16 = .ok (.ldI 0x20A#12) ∧
    decode 0b1100001100001111#16 = .ok (.rnd 0x3#4 0x0F#8) := by decide

theorem test_decode_alu :
    decode 0b1000000100100000#16 = .ok (.ldReg 0x1#4 0x2#4) ∧
    decode 0b1000000100100001#16 = .ok (.orReg 0x1#4 0x2#4) ∧
    decode 0b1000000100100010#16 = .ok (.andReg 0x1#4 0x2#4) ∧
    decode 0b1000000100100011#16 = .ok (.xorReg 0x1#4 0x2#4) ∧
    decode 0b1000000100100100#16 = .ok (.addReg 0x1#4 0x2#4) ∧
    decode 0b1000000100100101#16 = .ok (.subReg 0x1#4 0x2#4) ∧
    decode 0b1000000100100110#16 = .ok (.shrReg 0x1#4 0x2#4) ∧
    decode 0b1000000100100111#16 = .ok (.subnReg 0x1#4 0x2#4) ∧
    decode 0b1000000100101110#16 = .ok (.shlReg 0x1#4 0x2#4) := by decide

theorem test_decode_display_and_keypad :
    decode 0b1101000100100101#16 = .ok (.drw 0x1#4 0x2#4 0x5#4) ∧
    decode 0b1110010010011110#16 = .ok (.skp 0x4#4) ∧
    decode 0b1110010010100001#16 = .ok (.sknp 0x4#4) ∧
    decode 0b1111001100001010#16 = .ok (.ldVxK 0x3#4) := by decide

theorem test_decode_timers_index_memory :
    decode 0b1111010100000111#16 = .ok (.ldVxDt 0x5#4) ∧
    decode 0b1111010100010101#16 = .ok (.ldDtVx 0x5#4) ∧
    decode 0b1111010100011000#16 = .ok (.ldStVx 0x5#4) ∧
    decode 0b1111001000011110#16 = .ok (.addIVx 0x2#4) ∧
    decode 0b1111000000101001#16 = .ok (.ldFVx 0x0#4) ∧
    decode 0b1111000000110011#16 = .ok (.ldBVx 0x0#4) ∧
    decode 0b1111001001010101#16 = .ok (.ldMemVx 0x2#4) ∧
    decode 0b1111001001100101#16 = .ok (.ldVxMem 0x2#4) := by decide

/-- R78, one word of each row; R70, one byte is no instruction; R54, the byte order. -/
theorem test_decode_rejects_by_name :
    decode 0x8AB9#16 = .error (.unknownFamily8 0x8AB9#16) ∧
    decode 0xE100#16 = .error (.unknownFamilyE 0xE100#16) ∧
    decode 0xF075#16 = .error (.unknownFamilyF 0xF075#16) ∧
    decodeBytes [0x6A#8] = .error .truncated ∧
    decodeBytes [0x6A#8, 0x14#8, 0x7A#8] = .ok (.ldImm 0xA#4 0x14#8, [0x7A#8]) := by decide

/-- Lines of the programs P2, P3 and P5. -/
theorem test_assembly :
    Instr.assembly (.ldMemVx 0x1#4) = "LD [I], V1" ∧ Instr.assembly (.call 0x20A#12) = "CALL 0x20A" ∧
      Instr.assembly (.drw 0x1#4 0x2#4 0x3#4) = "DRW V1, V2, 0x3" := by decide

/-! ### The step (vectors U1 to U10) -/

/-- U1. -/
theorem test_sys_reports :
    (run 0x0123#16 start).pc = 0x0202#16 ∧
      (run 0x0123#16 start).env.outputs = [.diag .nativeCall 0x0200#16 0x0123#16] := by decide

/-- U3. -/
theorem test_unknown_word_is_passed_over :
    (run 0x8AB9#16 (withRegs [(0xA#4, 0x33#8), (0xB#4, 0x44#8)])).pc = 0x0202#16 ∧
      (run 0x8AB9#16 start).env.outputs = [.diag .unknownOpcode 0x0200#16 0x8AB9#16] := by decide

/-- U7, its first step: the word in the last two bytes runs and `pc` leaves `mem`. -/
theorem test_last_word_of_memory :
    (run 0x6007#16 (start.setPc 0x0FFE#16)).pc = 0x1000#16 ∧
      (run 0x6007#16 (start.setPc 0x0FFE#16)).reg 0x0#4 = 0x07#8 := by decide

/-- U8. -/
theorem test_fetch_over_the_end :
    (stepped (start.setPc 0x0FFF#16)).fault = some (.memoryOutOfRange 0x1000) ∧
      (stepped (start.setPc 0x0FFF#16)).pc = 0x0FFF#16 := by decide

/-- U9. -/
theorem test_odd_pc_is_legal :
    (run 0x612A#16 (start.setPc 0x0201#16)).pc = 0x0203#16 ∧
      (run 0x612A#16 (start.setPc 0x0201#16)).reg 0x1#4 = 0x2A#8 := by decide

/-! ### Control transfer and skips (vectors F1 to F24) -/

/-- F1. -/
theorem test_jp : (run 0x1234#16 start).pc = 0x0234#16 := by decide

/-- F4. -/
theorem test_call :
    (run 0x220A#16 (start.setPc 0x0204#16)).pc = 0x020A#16 ∧
      (run 0x220A#16 (start.setPc 0x0204#16)).stackAt 0 = 0x0206#16 := by decide

/-- F5. -/
theorem test_call_overflow :
    (run 0x2300#16 { start with sp := 16 }).fault = some (.stackOverflow 0x0200#16) ∧
      (run 0x2300#16 { start with sp := 16 }).pc = 0x0202#16 := by decide

/-- F9: an odd return address. -/
theorem test_ret :
    (run 0x00EE#16 (start.push 0x0301#16)).pc = 0x0301#16 ∧
      (run 0x00EE#16 (start.push 0x0301#16)).sp = 0 := by decide

/-- F8. -/
theorem test_ret_underflow :
    (run 0x00EE#16 start).fault = some (.stackUnderflow 0x0200#16) ∧
      (run 0x00EE#16 start).pc = 0x0202#16 := by decide

/-- F10, F11. -/
theorem test_seImm :
    (run 0x332A#16 (withRegs [(0x3#4, 0x2A#8)])).pc = 0x0204#16 ∧
      (run 0x332B#16 (withRegs [(0x3#4, 0x2A#8)])).pc = 0x0202#16 := by decide

/-- F12, F13. -/
theorem test_sneImm :
    (run 0x432A#16 (withRegs [(0x3#4, 0x2A#8)])).pc = 0x0202#16 ∧
      (run 0x432B#16 (withRegs [(0x3#4, 0x2A#8)])).pc = 0x0204#16 := by decide

/-- F15, F16. -/
theorem test_seReg :
    (run 0x5120#16 (withRegs [(0x1#4, 0x07#8), (0x2#4, 0x08#8)])).pc = 0x0202#16 ∧
      (run 0x5127#16 (withRegs [(0x1#4, 0x07#8), (0x2#4, 0x07#8)])).pc = 0x0204#16 := by decide

/-- F19, F20. -/
theorem test_sneReg :
    (run 0x9120#16 (withRegs [(0x1#4, 0x07#8), (0x2#4, 0x07#8)])).pc = 0x0202#16 ∧
      (run 0x912F#16 (withRegs [(0x1#4, 0x07#8), (0x2#4, 0x08#8)])).pc = 0x0204#16 := by decide

/-- F22: the sum is not reduced to 12 bits. -/
theorem test_jpV0 : (run 0xBFFF#16 (withRegs [(0x0#4, 0xFF#8)])).pc = 0x10FE#16 := by decide

/-- F23: V0 is used, not V2. -/
theorem test_jpV0_uses_V0 :
    (run 0xB200#16 (withRegs [(0x0#4, 0x01#8), (0x2#4, 0x50#8)])).pc = 0x0201#16 := by decide

/-! ### Immediates (vectors I1 to I11) -/

/-- I1. -/
theorem test_ldImm : (run 0x6A14#16 start).reg 0xA#4 = 0x14#8 := by decide

/-- I4: no carry flag. -/
theorem test_addImm :
    holds [(0x1#4, 0x00#8), (0xF#4, 0x00#8)] (run 0x7101#16 (withRegs [(0x1#4, 0xFF#8)])) = true := by
  decide

/-- I7. -/
theorem test_ldI : (run 0xA20A#16 start).I = 0x020A#16 := by decide

/-- I9, I11, with the answer 0xB7 laid down. -/
theorem test_rnd :
    (run 0xC30F#16 { start with env := { start.env with rndAnswers := [0xB7#8] } }).reg 0x3#4 = 0x07#8 ∧
    (run 0xC3FF#16 { start with env := { start.env with rndAnswers := [0xB7#8] } }).reg 0x3#4 = 0xB7#8 := by
  decide

/-! ### Register-to-register arithmetic (vectors A1 to A64) -/

/-- A1. -/
theorem test_ldReg :
    holds [(0x1#4, 0x5C#8), (0xF#4, 0x01#8)]
      (run 0x8120#16 (withRegs [(0x1#4, 0xAA#8), (0x2#4, 0x5C#8), (0xF#4, 0x01#8)])) = true := by decide

/-- A2. -/
theorem test_orReg :
    holds [(0x1#4, 0xFF#8), (0xF#4, 0x00#8)]
      (run 0x8121#16 (withRegs [(0x1#4, 0xF0#8), (0x2#4, 0x0F#8), (0xF#4, 0x01#8)])) = true := by decide

/-- A41: the flag is the later write. -/
theorem test_orReg_into_VF :
    (run 0x8F21#16 (withRegs [(0xF#4, 0xA0#8), (0x2#4, 0x05#8)])).reg 0xF#4 = 0x00#8 := by decide

/-- A3. -/
theorem test_andReg :
    holds [(0x1#4, 0x30#8), (0xF#4, 0x00#8)]
      (run 0x8122#16 (withRegs [(0x1#4, 0xF3#8), (0x2#4, 0x3C#8), (0xF#4, 0x01#8)])) = true := by decide

/-- A4. -/
theorem test_xorReg :
    holds [(0x1#4, 0xF0#8), (0xF#4, 0x00#8)]
      (run 0x8123#16 (withRegs [(0x1#4, 0xFF#8), (0x2#4, 0x0F#8), (0xF#4, 0x01#8)])) = true := by decide

/-- A9. -/
theorem test_addReg :
    holds [(0x1#4, 0x2C#8), (0xF#4, 0x01#8)]
      (run 0x8124#16 (withRegs [(0x1#4, 0xC8#8), (0x2#4, 0x64#8)])) = true := by decide

/-- A42: the carry is the later write. -/
theorem test_addReg_into_VF :
    (run 0x8F24#16 (withRegs [(0xF#4, 0xFF#8), (0x2#4, 0x02#8)])).reg 0xF#4 = 0x01#8 := by decide

/-- A13. -/
theorem test_subReg :
    holds [(0x1#4, 0xF0#8), (0xF#4, 0x00#8)]
      (run 0x8125#16 (withRegs [(0x1#4, 0x10#8), (0x2#4, 0x20#8), (0xF#4, 0x01#8)])) = true := by decide

/-- A44: the result is the later write. -/
theorem test_subReg_into_VF :
    (run 0x8F25#16 (withRegs [(0xF#4, 0x09#8), (0x2#4, 0x03#8)])).reg 0xF#4 = 0x06#8 := by decide

/-- A14. -/
theorem test_shrReg :
    holds [(0x1#4, 0x03#8), (0x2#4, 0x07#8), (0xF#4, 0x01#8)]
      (run 0x8126#16 (withRegs [(0x1#4, 0xAA#8), (0x2#4, 0x07#8)])) = true := by decide

/-- A47: the result is the later write. -/
theorem test_shrReg_into_VF :
    (run 0x8F26#16 (withRegs [(0xF#4, 0x55#8), (0x2#4, 0x07#8)])).reg 0xF#4 = 0x03#8 := by decide

/-- A21. -/
theorem test_subnReg :
    holds [(0x1#4, 0x10#8), (0xF#4, 0x01#8)]
      (run 0x8127#16 (withRegs [(0x1#4, 0x10#8), (0x2#4, 0x20#8)])) = true := by decide

/-- A46: the result is the later write. -/
theorem test_subnReg_into_VF :
    (run 0x8F27#16 (withRegs [(0xF#4, 0x03#8), (0x2#4, 0x09#8)])).reg 0xF#4 = 0x06#8 := by decide

/-- A25. -/
theorem test_shlReg :
    holds [(0x1#4, 0x02#8), (0x2#4, 0x81#8), (0xF#4, 0x01#8)]
      (run 0x812E#16 (withRegs [(0x1#4, 0x00#8), (0x2#4, 0x81#8)])) = true := by decide

/-- A53: VF as the source. -/
theorem test_shlReg_from_VF :
    holds [(0x1#4, 0x02#8), (0xF#4, 0x01#8)]
      (run 0x81FE#16 (withRegs [(0x1#4, 0x00#8), (0xF#4, 0x81#8)])) = true := by decide

/-! ### Display (vectors D1 to D14) -/

/-- `start` with `I` at 0x300 and one byte there. -/
def sprite (b : Byte) (regs : List (RegIdx × Byte)) : State :=
  ((withRegs regs).setI 0x0300#16).poke 0x300 b

/-- D1. -/
theorem test_cls :
    (run 0x00E0#16 ((withRegs [(0xF#4, 0x55#8)]).toggle 3 4)).fb = darkGrid takenConfig ∧
      (run 0x00E0#16 start).env.outputs.length = 1 := by decide

/-- D13. -/
theorem test_cls_present_fails :
    (run 0x00E0#16 { start with env := { start.env with presentAnswers := [.fail] } }).fault =
      some (.displayFlushFailure 0x0200#16) := by decide

/-- D8: clipping at column 64, collision at column 63. -/
theorem test_drw :
    ([59, 60, 61, 62, 63, 0].map fun c =>
        (run 0xD121#16 ((sprite 0xFF#8 [(0x1#4, 0x3C#8)]).setFb
          (flipPixel (darkGrid takenConfig) 0 63))).pixel 0 c) =
      [false, true, true, true, false, false] ∧
    (run 0xD121#16 ((sprite 0xFF#8 [(0x1#4, 0x3C#8)]).setFb
      (flipPixel (darkGrid takenConfig) 0 63))).reg 0xF#4 = 0x01#8 := by decide

/-- D10: the second row lies outside `mem`; nothing is drawn and VF stays. -/
theorem test_drw_outside_memory :
    (run 0xD122#16 ((withRegs [(0x2#4, 0x1E#8), (0xF#4, 0x07#8)]).setI 0x0FFF#16)).fault =
      some (.memoryOutOfRange 0x1000) ∧
    (run 0xD122#16 ((withRegs [(0x2#4, 0x1E#8), (0xF#4, 0x07#8)]).setI 0x0FFF#16)).reg 0xF#4 =
      0x07#8 := by decide

/-! ### Keypad (vectors K1 to K14) -/

/-- V4 holds `k`, and the next `KeyDown` is answered `down`. -/
def keyed (k : Byte) (down : Bool) : State :=
  { withRegs [(0x4#4, k)] with env := { Env.silent with keyAnswers := [down] } }

/-- K1, K2. -/
theorem test_skp :
    (run 0xE49E#16 (keyed 0x07#8 true)).pc = 0x0204#16 ∧
      (run 0xE49E#16 (keyed 0x07#8 false)).pc = 0x0202#16 := by decide

/-- K5. -/
theorem test_skp_above_fifteen :
    (run 0xE49E#16 (keyed 0x10#8 true)).fault = some (.keyIndexOutOfRange 0x10#8) := by decide

/-- K3, K4. -/
theorem test_sknp :
    (run 0xE4A1#16 (keyed 0x07#8 false)).pc = 0x0204#16 ∧
      (run 0xE4A1#16 (keyed 0x07#8 true)).pc = 0x0202#16 := by decide

/-- K6. -/
theorem test_sknp_above_fifteen :
    (run 0xE4A1#16 (keyed 0xFF#8 true)).fault = some (.keyIndexOutOfRange 0xFF#8) := by decide

/-- K8. -/
theorem test_key_read_arms :
    (run 0xF30A#16 start).waitKey = .armed ∧ (run 0xF30A#16 start).pc = 0x0200#16 := by decide

/-- K11. -/
theorem test_key_read_delivers :
    (run 0xF30A#16 (start.setWaitKey (.captured 0xB#4))).reg 0x3#4 = 0x0B#8 ∧
      (run 0xF30A#16 (start.setWaitKey (.captured 0xB#4))).pc = 0x0202#16 := by decide

/-- K10, K12, K13. -/
theorem test_key_release :
    ((start.setWaitKey .armed).keyRelease 0xB#4).waitKey = .captured 0xB#4 ∧
      (start.keyRelease 0x5#4) = start ∧
      ((start.setWaitKey (.captured 0xB#4)).keyRelease 0x5#4).waitKey = .captured 0xB#4 := by decide

/-! ### Timers, index, memory transfer (vectors M1 to M28) -/

/-- M1. -/
theorem test_ldVxDt : (run 0xF507#16 (start.setDT 0x3C#8)).reg 0x5#4 = 0x3C#8 := by decide

/-- M2. -/
theorem test_ldDtVx : (run 0xF515#16 (withRegs [(0x5#4, 0x3C#8)])).DT = 0x3C#8 := by decide

/-- M3. -/
theorem test_ldStVx : (run 0xF518#16 (withRegs [(0x5#4, 0x02#8)])).ST = 0x02#8 := by decide

/-- M5: a timer at 0 stays at 0. -/
theorem test_tick60 :
    (start.setDT 0x01#8).tick60.DT = 0x00#8 ∧ (start.setDT 0x01#8).tick60.ST = 0x00#8 := by decide

/-- M8, M9. -/
theorem test_addIVx :
    (run 0xF21E#16 ((withRegs [(0x2#4, 0x01#8)]).setI 0x0FFF#16)).I = 0x1000#16 ∧
      (run 0xF21E#16 ((withRegs [(0x2#4, 0x02#8)]).setI 0xFFFF#16)).I = 0x0001#16 := by decide

/-- M10, M14. -/
theorem test_ldFVx :
    (run 0xF029#16 (withRegs [(0x0#4, 0x0A#8)])).I = 0x0082#16 ∧
      (run 0xF029#16 (withRegs [(0x0#4, 0xFF#8)])).I = 0x054B#16 := by decide

/-- M15. -/
theorem test_ldBVx :
    (run 0xF033#16 ((withRegs [(0x0#4, 0xEA#8)]).setI 0x0300#16)).peekMany 0x300 4 =
      [0x02#8, 0x03#8, 0x04#8, 0x00#8] := by decide

/-- M20. -/
theorem test_ldBVx_outside_memory :
    (run 0xF033#16 ((withRegs [(0x0#4, 0x7B#8)]).setI 0x0FFE#16)).fault =
      some (.memoryOutOfRange 0x1000) ∧
    (run 0xF033#16 ((withRegs [(0x0#4, 0x7B#8)]).setI 0x0FFE#16)).peek 0xFFE = 0x00#8 := by decide

/-- M21. -/
theorem test_ldMemVx :
    (run 0xF255#16 ((withRegs [(0x0#4, 0x11#8), (0x1#4, 0x22#8), (0x2#4, 0x33#8),
      (0x3#4, 0x44#8)]).setI 0x0400#16)).peekMany 0x400 4 = [0x11#8, 0x22#8, 0x33#8, 0x00#8] ∧
    (run 0xF255#16 (start.setI 0x0400#16)).I = 0x0403#16 := by decide

/-- M24, M25. -/
theorem test_ldMemVx_at_the_end :
    (run 0xFF55#16 (start.setI 0x0FF1#16)).fault = some (.memoryOutOfRange 0x1000) ∧
      (run 0xFF55#16 (start.setI 0x0FF0#16)).I = 0x1000#16 := by decide

/-- M26. -/
theorem test_ldVxMem :
    holds [(0x0#4, 0x11#8), (0x1#4, 0x22#8), (0x2#4, 0x33#8), (0x3#4, 0x99#8)]
      (run 0xF265#16 (State.pokeMany 0x400 [0x11#8, 0x22#8, 0x33#8, 0x44#8]
        ((withRegs [(0x3#4, 0x99#8)]).setI 0x0400#16))) = true := by decide

/-- M28. -/
theorem test_ldVxMem_outside_memory :
    (run 0xF065#16 (start.setI 0x1000#16)).fault = some (.memoryOutOfRange 0x1000) := by decide

/-! ### Reset and the host's word -/

/-- R51, R213: the byte before the font, its first and last byte, the byte after it. -/
theorem test_reset_memory :
    State.reset.peek 0x04F = 0x00#8 ∧ State.reset.peek 0x050 = 0xF0#8 ∧
      State.reset.peek 0x09F = 0x80#8 ∧ State.reset.peek 0x0A0 = 0x00#8 := by decide

/-- The host's two questions about `JP 0x234`. -/
theorem test_host_word :
    decodeTableWord 16 0x1234 = some (.jp 0x234#12) ∧
      (stepped (State.reset.withFetchWord 16 0x1234)).pc = 0x0234#16 := by decide

/-! ### Witnesses: concrete states and operands that meet a statement's hypotheses -/

/-- `start` at `pc` with a word there. -/
def placed (pc op : Word) : State := (start.setPc pc).placeWord op

theorem witness_DecodeOfEncodeIsTheInstruction :
    Instr.wellFormed (.sys 0x0DF#12) = true ∧ Instr.wellFormed (.sys 0x0EF#12) = true ∧
      Instr.wellFormed (.drw 0xF#4 0xF#4 0xF#4) = true := by decide

theorem witness_EncodeOfDecodeIsTheWord :
    decode 0x00EF#16 = .ok (.sys 0x0EF#12) ∧ decode 0x5120#16 = .ok (.seReg 0x1#4 0x2#4 0x0#4) := by
  decide

/-- Both arms, and a word two rows of the map match. -/
theorem witness_DecoderAgreesWithOpcodeMap :
    decode 0x00E0#16 = .ok .cls ∧ (Instr.sys 0x0E0#12).row.selects 0x00E0#16 = true ∧
      decode 0x800F#16 = .error (.unknownFamily8 0x800F#16) := by decide

/-- Each row of R78 next to a neighbour that decodes. -/
theorem witness_UnknownWordsAreTheThreeRows :
    decode 0x8008#16 = .error (.unknownFamily8 0x8008#16) ∧ decode 0x8007#16 = .ok (.subnReg 0 0) ∧
    decode 0xE09F#16 = .error (.unknownFamilyE 0xE09F#16) ∧ decode 0xE09E#16 = .ok (.skp 0) ∧
    decode 0xF066#16 = .error (.unknownFamilyF 0xF066#16) ∧ decode 0xF065#16 = .ok (.ldVxMem 0) := by
  decide

theorem witness_FetchIsMostSignificantByteFirst : (placed 0x0FFE#16 0x6007#16).Fetchable := by decide

theorem witness_StepRunsTheDecodedInstruction :
    (placed 0x0FFE#16 0x6007#16).fault = none ∧ (placed 0x0FFE#16 0x6007#16).Fetchable ∧
      decode ((placed 0x0FFE#16 0x6007#16).peek 0xFFE ++ (placed 0x0FFE#16 0x6007#16).peek 0xFFF) =
        .ok (.ldImm 0x0#4 0x07#8) := by decide

theorem witness_UnknownWordIsPassedOver :
    (placed 0x0FFE#16 0xF075#16).fault = none ∧ (placed 0x0FFE#16 0xF075#16).Fetchable ∧
      decode ((placed 0x0FFE#16 0xF075#16).peek 0xFFE ++ (placed 0x0FFE#16 0xF075#16).peek 0xFFF) =
        .error (.unknownFamilyF 0xF075#16) := by decide

/-- The two clauses at 0x1000 and 0xFFF: no `pc` falls under both. -/
theorem witness_FetchOutsideMemoryLatches :
    start.fault = none ∧ start.cfg.memSize ≤ (0x1000#16).toNat ∧
      (0x0FFF#16).toNat < start.cfg.memSize ∧ start.cfg.memSize ≤ (0x0FFF#16).toNat + 1 := by decide

theorem witness_LatchedCoreIsInert :
    (start.raise (.stackUnderflow 0x0200#16)).fault = some (.stackUnderflow 0x0200#16) := by decide

/-- One entry left. -/
theorem witness_CallPushesAndJumps :
    { start with sp := 15 }.stack.length = start.cfg.stackDepth ∧
      { start with sp := 15 }.sp < start.cfg.stackDepth := by decide

theorem witness_ReturnPopsIntoPc : 0 < (start.push 0x0206#16).sp := by decide

theorem witness_StackFaultsChangeNothingElse :
    start.sp = 0 ∧ { start with sp := 16 }.sp = start.cfg.stackDepth := by decide

/-- The premise X ≠ 0xF of LogicClearsVF, AddSetsCarry, SubtractSetsNotBorrow and ShiftsTakeVy, at the
register before it. -/
theorem witness_flag_results : (0xE#4 : RegIdx) ≠ 0xF#4 := by decide

/-- Rows 31 and 32, the second one clipped, with the sprite's byte the last of memory. -/
def corner : State := ((withRegs [(0x2#4, 0x1F#8)]).setI 0x0FFF#16).poke 0xFFF 0x80#8

theorem witness_DrawTogglesTheSpritesPixels :
    corner.Inv ∧ corner.I.toNat + visibleRows corner 0x2#4 0x2#4 ≤ corner.cfg.memSize := by decide

/-- N = 0 with `I` above memory: the other half of the premise (R149 corner case 1). -/
def noRows : State := corner.setI 0x1001#16

theorem witness_DrawTogglesTheSpritesPixels_without_rows :
    noRows.Inv ∧ visibleRows noRows 0x2#4 0x0#4 = 0 ∧
      ¬ noRows.I.toNat + visibleRows noRows 0x2#4 0x0#4 ≤ noRows.cfg.memSize := by decide

/-- The same one row higher: the second row is read, and lies outside. -/
theorem witness_DrawOutsideMemoryLatches :
    1 ≤ visibleRows (corner.writeReg 0x2#4 0x1E#8) 0x2#4 0x2#4 ∧
      corner.cfg.memSize < corner.I.toNat + visibleRows (corner.writeReg 0x2#4 0x1E#8) 0x2#4 0x2#4 := by
  decide

theorem witness_DrawTwiceRestoresTheGrid :
    (corner.Inv ∧ (0x1#4 : RegIdx) ≠ 0xF#4 ∧ (0x2#4 : RegIdx) ≠ 0xF#4 ∧
      corner.I.toNat + visibleRows corner 0x2#4 0x2#4 ≤ corner.cfg.memSize) ∧
    ∃ t u, exec (.drw 0x1#4 0x2#4 0x2#4) corner = .next t ∧
      exec (.drw 0x1#4 0x2#4 0x2#4) t = .next u :=
  ⟨by decide, _, _, rfl, rfl⟩

theorem witness_DrawTwiceRestoresTheGrid_without_rows :
    (noRows.Inv ∧ visibleRows noRows 0x2#4 0x0#4 = 0) ∧
    ∃ t u, exec (.drw 0x1#4 0x2#4 0x0#4) noRows = .next t ∧
      exec (.drw 0x1#4 0x2#4 0x0#4) t = .next u :=
  ⟨by decide, _, _, rfl, rfl⟩

theorem witness_KeySkipsFollowTheAnswer : ((keyed 0x0F#8 true).reg 0x4#4).toNat ≤ 15 := by decide

theorem witness_KeyNumberAboveFifteenLatches : 15 < ((keyed 0x10#8 true).reg 0x4#4).toNat := by decide

theorem witness_KeyReadArmsWaitsAndDelivers :
    start.waitKey = .notWaiting ∧ (start.setWaitKey .armed).waitKey = .armed ∧
      (start.setWaitKey (.captured 0xF#4)).waitKey = .captured 0xF#4 := by decide

theorem witness_KeyWaitEndsWithTheReleasedKey :
    (placed 0x0FFE#16 0xF30A#16).fault = none ∧ (placed 0x0FFE#16 0xF30A#16).waitKey = .notWaiting ∧
      (placed 0x0FFE#16 0xF30A#16).Fetchable ∧
      decode ((placed 0x0FFE#16 0xF30A#16).peek 0xFFE ++ (placed 0x0FFE#16 0xF30A#16).peek 0xFFF) =
        .ok (.ldVxK 0x3#4) := by decide

/-- DecimalDigitsAreStored, DumpStoresV0ToVx, LoadFillsV0ToVx: the highest `I` each completes at. -/
theorem witness_transfers_inside_memory :
    (start.setI 0x0FFD#16).I.toNat + 2 < start.cfg.memSize ∧
      (start.setI 0x0FF0#16).I.toNat + (0xF#4 : RegIdx).toNat < start.cfg.memSize := by decide

/-- The lowest `I` each transfer faults at. -/
theorem witness_TransferOutsideMemoryLatches :
    start.cfg.memSize ≤ (start.setI 0x0FFE#16).I.toNat + 2 ∧
      start.cfg.memSize ≤ (start.setI 0x0FF1#16).I.toNat + (0xF#4 : RegIdx).toNat := by decide

theorem witness_StoredInstructionIsFetched :
    ((start.setI 0x0200#16).I.toNat + (0x1#4 : RegIdx).toNat < start.cfg.memSize ∧
      (start.setI 0x0200#16).pc.toNat = (start.setI 0x0200#16).I.toNat + (0x0#4 : RegIdx).toNat ∧
      (0x1#4 : RegIdx).toNat = (0x0#4 : RegIdx).toNat + 1) ∧
    ∃ t, exec (.ldMemVx 0x1#4) (start.setI 0x0200#16) = .next t :=
  ⟨by decide, _, rfl⟩

/-- A store that changes a byte. -/
theorem witness_OnlyTransfersWriteMemory :
    ∃ t, exec (.ldBVx 0x0#4) ((withRegs [(0x0#4, 0xEA#8)]).setI 0x0300#16) = .next t ∧
      t.peek 0x302 ≠ ((withRegs [(0x0#4, 0xEA#8)]).setI 0x0300#16).peek 0x302 :=
  ⟨_, rfl, by decide⟩

/-- For each clause an instruction that writes the element. -/
theorem witness_EachElementHasItsWriters :
    (∃ t, exec .cls (start.toggle 0 0) = .next t ∧ t.fb ≠ (start.toggle 0 0).fb) ∧
    (∃ t, exec (.call 0x300#12) start = .next t ∧ ¬ (t.stack = start.stack ∧ t.sp = start.sp)) ∧
    (∃ t, exec (.ldDtVx 0x5#4) (withRegs [(0x5#4, 0x02#8)]) = .next t ∧ t.DT ≠ start.DT) ∧
    (∃ t, exec (.ldStVx 0x5#4) (withRegs [(0x5#4, 0x02#8)]) = .next t ∧ t.ST ≠ start.ST) ∧
    (∃ t, exec (.ldVxK 0x5#4) start = .next t ∧ t.waitKey ≠ start.waitKey) ∧
    ∃ t, exec (.ldI 0x300#12) start = .next t ∧ t.I ≠ start.I :=
  ⟨⟨_, rfl, by decide⟩, ⟨_, rfl, by decide⟩, ⟨_, rfl, by decide⟩, ⟨_, rfl, by decide⟩,
    ⟨_, rfl, by decide⟩, _, rfl, by decide⟩

theorem witness_FlagIsWrittenOnlyByTheListed :
    (Instr.writesFlag (.addReg 0x1#4 0x2#4) = true ∧
      Instr.destination (.addReg 0x1#4 0x2#4) ≠ some 0xF#4) ∧
    (Instr.writesFlag (.ldVxMem 0xE#4) = false ∧ Instr.ldVxMem 0xE#4 ≠ Instr.ldVxMem 0xF#4) ∧
    ∃ t, exec (.addReg 0x1#4 0x2#4) start = .next t :=
  ⟨by decide, by decide, _, rfl⟩

theorem witness_PcChangesOnlyInTheListedWays : ∃ t, exec (.jpV0 0xFFF#12) start = .next t := ⟨_, rfl⟩

theorem witness_OnlyTheListedFaults :
    start.fault = none ∧ ∃ t, exec .ret start = .next t ∧
      t.fault = some (.stackUnderflow (start.pc - 2#16)) :=
  ⟨rfl, _, rfl, by decide⟩

theorem witness_FaultsArePrecise :
    (start.fault = none ∧ ∃ t, exec .ret start = .next t ∧
      t.fault = some (.stackUnderflow (start.pc - 2#16))) ∧
    ∀ ia, Fault.stackUnderflow (start.pc - 2#16) ≠ .displayFlushFailure ia :=
  ⟨⟨rfl, _, rfl, by decide⟩, fun _ h => by cases h⟩

theorem witness_OnlyAskingInstructionsSeeTheAnswers :
    Instr.asks (.ldVxK 0x3#4) = false ∧ ∃ t, exec (.ldVxK 0x3#4) start = .next t := ⟨rfl, _, rfl⟩

theorem witness_OutputsOfEachInstruction :
    start.fault = none ∧ (∃ t, exec (.sys 0x123#12) start = .next t) ∧
      (∃ t, exec (.drw 0x1#4 0x2#4 0x1#4) noRows = .next t ∧
        t.fault = some (.memoryOutOfRange 0x1001)) ∧
      ∃ t, exec .cls start = .next t :=
  ⟨rfl, ⟨_, rfl⟩, ⟨_, rfl, by decide⟩, _, rfl⟩

theorem witness_TicksCommuteWithOtherInstructions :
    Instr.usesTimer (.ldVxK 0x3#4) = false ∧ start.fault = none ∧
      ∃ t, exec (.ldVxK 0x3#4) start = .next t ∧ t.fault = none := ⟨rfl, rfl, _, rfl, rfl⟩

/-- A call with one entry left, to the last word of memory. -/
def callSite : State :=
  State.pokeMany 0xFFE [0x00#8, 0xEE#8] { placed 0x0200#16 0x2FFE#16 with sp := 15 }

theorem witness_CallThenReturnComesBack :
    callSite.Inv ∧ callSite.fault = none ∧ callSite.sp < callSite.cfg.stackDepth ∧
      callSite.Fetchable ∧ callSite.peek 0x200 ++ callSite.peek 0x201 = encode (.call 0xFFE#12) ∧
      (0xFFE#12 : Imm12).toNat + 1 < callSite.cfg.memSize ∧ callSite.peek 0xFFE = 0x00#8 ∧
      callSite.peek 0xFFF = 0xEE#8 := by decide

theorem witness_TickSaturatesBothTimers : (start.setDT 0x01#8).fault = none := by decide

theorem witness_ReleaseIsCapturedOnlyWhenArmed :
    (start.setWaitKey .armed).fault = none ∧ (start.setWaitKey .armed).waitKey = .armed ∧
      start.fault = none ∧ start.waitKey ≠ .armed := by decide

/-- ResetBuildsTheMemoryImage and RomSizeLimit: a ROM of exactly the limit, and one byte more. -/
theorem witness_RomSizes :
    start.cfg.Legal ∧ (List.replicate 3584 0x12#8).length ≤ start.cfg.memSize - 0x200 ∧
      start.cfg.memSize - 0x200 < (List.replicate 3585 0x12#8).length ∧ start.cfg.memSize = 4096 := by
  simp only [List.length_replicate]
  decide

theorem witness_ResetLeavesTheListedValues :
    ∃ t, (start.raise (.stackUnderflow 0x0200#16)).resetEvent [0x12#8, 0x00#8] = .next t :=
  exists_next (by decide)

theorem witness_StepKeepsTheInvariant :
    callSite.Inv ∧ ∃ t, step callSite = .next t := ⟨by decide, exists_next (by decide)⟩

theorem witness_RunsKeepTheInvariant :
    callSite.Inv ∧ ∃ t, runEvents [.step, .tick60, .keyRelease 0x3#4, .reset [0x12#8]] callSite =
      .next t := ⟨by decide, exists_next (by decide)⟩

theorem witness_EqualContentsAreEqualMemories :
    Memory.wf takenConfig [(0x200, 0x12#8), (0xFFF, 0x01#8)] ∧ Memory.wf takenConfig [] := by decide

end Sys2Proof.Tests
end

/-! ## The byte order of memory as the fetch sees it (`20_memory.md` R54) -/

namespace Sys2Proof.Machine

/-- Settles O6: the fetched word is the byte at `pc` laid over the byte at `pc + 1`, and its two
halves are those bytes again. -/
theorem fetchIsMostSignificantByteFirst : Obligations.FetchIsMostSignificantByteFirst :=
  fun _ hs => ⟨_, fetch_of_fetchable hs, highByte_wordOfBytes _ _, lowByte_wordOfBytes _ _⟩

end Sys2Proof.Machine

/-! ## Control transfer (`41_flow.md` R106, R108, R109, R112, R113): what writing `pc` changes, and the
value it gets -/

namespace Sys2Proof.Machine

/-- The frame of every instruction that writes `pc` only. -/
theorem setPc_frame (s : State) (w : Word) :
    SameRegsBut [] s (s.setPc w) ∧ (s.setPc w).I = s.I ∧ SameOutsideRegisters s (s.setPc w) :=
  ⟨fun _ _ => rfl, rfl, fun _ => rfl, ⟨rfl, ⟨rfl, rfl⟩, ⟨rfl, rfl⟩, rfl, rfl⟩, rfl, rfl⟩

/-- The skip primitive writes `pc` only, whether or not it is taken. -/
theorem skipIf_frame (s : State) (taken : Bool) :
    SameRegsBut [] s (s.skipIf taken) ∧ (s.skipIf taken).I = s.I ∧
      SameOutsideRegisters s (s.skipIf taken) :=
  setPc_frame s _

theorem toNat_skipIf_pc (s : State) (taken : Bool) :
    (s.skipIf taken).pc.toNat = if taken then (s.pc.toNat + 2) % 65536 else s.pc.toNat := by
  cases taken with
  | false => rfl
  | true => exact BitVec.toNat_add s.pc 2#16

@[simp] theorem toNat_zextImm (nnn : Imm12) : (zextImm nnn).toNat = nnn.toNat :=
  BitVec.toNat_setWidth_of_le (by decide)

@[simp] theorem toNat_zextByte (b : Byte) : (zextByte b).toNat = b.toNat :=
  BitVec.toNat_setWidth_of_le (by decide)

/-- The target of BNNN: a 12-bit and an 8-bit number add up to less than 65536, so R112's sum does
not wrap. -/
theorem toNat_zextImm_add_zextByte (nnn : Imm12) (b : Byte) :
    (zextImm nnn + zextByte b).toNat = nnn.toNat + b.toNat := by
  have hsum : nnn.toNat + b.toNat < 2 ^ 16 := by omega
  rw [BitVec.toNat_add, toNat_zextImm, toNat_zextByte, Nat.mod_eq_of_lt hsum]

/-- Settles O13: both jumps are one write of `pc`, whose value is NNN, or the sum that does not
wrap. -/
theorem jumpsLoadTheTarget : Obligations.JumpsLoadTheTarget := by
  intro nnn s
  refine List.forall_mem_cons.2 ⟨?jp, List.forall_mem_singleton.2 ?jpV0⟩
  case jp => exact ⟨s.setPc (zextImm nnn), rfl, toNat_zextImm nnn, setPc_frame s _⟩
  case jpV0 =>
    exact ⟨s.setPc (zextImm nnn + zextByte (s.reg 0#4)), rfl,
      toNat_zextImm_add_zextByte nnn _, setPc_frame s _⟩

/-- Settles O17: both are the skip primitive, taken on the comparison and on its negation. -/
theorem immediateSkips : Obligations.ImmediateSkips := by
  intro x nn s
  refine ⟨⟨s.skipIf (s.reg x == nn), rfl, ?se, skipIf_frame s _⟩,
    s.skipIf (s.reg x != nn), rfl, ?sne, skipIf_frame s _⟩
  case se => simp [toNat_skipIf_pc]
  case sne => simp [toNat_skipIf_pc]

end Sys2Proof.Machine

/-! ## Immediates and index loads (`42_immediate.md` R120 to R122, `43_alu.md` R131,
`46_timer_index_memory.md` R170): what writing one register or `I` leaves unchanged, and the glyph
address -/

namespace Sys2Proof.Machine

/-- The frame of every instruction that writes one register only. -/
theorem writeReg_frame (s : State) (x : RegIdx) (b : Byte) :
    SameRegsBut [x] s (s.writeReg x b) ∧ (s.writeReg x b).pc = s.pc ∧ (s.writeReg x b).I = s.I ∧
      SameOutsideRegisters s (s.writeReg x b) :=
  ⟨fun _ hr => State.reg_writeReg_other s b (List.ne_of_not_mem_cons hr), rfl, rfl, fun _ => rfl,
    ⟨rfl, ⟨rfl, rfl⟩, ⟨rfl, rfl⟩, rfl, rfl⟩, rfl, rfl⟩

/-- The frame of every instruction that writes `I` only. -/
theorem setI_frame (s : State) (w : Word) :
    SameRegsBut [] s (s.setI w) ∧ (s.setI w).pc = s.pc ∧ SameOutsideRegisters s (s.setI w) :=
  ⟨fun _ _ => rfl, rfl, fun _ => rfl, ⟨rfl, ⟨rfl, rfl⟩, ⟨rfl, rfl⟩, rfl, rfl⟩, rfl, rfl⟩

/-- The glyph address of the largest byte is 0x050 + 5 · 255, so R170's address does not wrap. -/
theorem toNat_glyphAddress (b : Byte) : (glyphAddress b).toNat = 0x0050 + 5 * b.toNat := by
  have hfits : 0x0050 + 5 * b.toNat < 2 ^ 16 := by omega
  exact Nat.mod_eq_of_lt hfits

/-- Settles O19: both loads are one write of Vx, which reads back as the byte written. -/
theorem loadsCopyIntoVx : Obligations.LoadsCopyIntoVx := by
  intro x y nn s
  refine List.forall_mem_cons.2 ⟨?ldImm, List.forall_mem_singleton.2 ?ldReg⟩
  case ldImm => exact ⟨s.writeReg x nn, rfl, State.reg_writeReg_same s x nn, writeReg_frame s x nn⟩
  case ldReg =>
    exact ⟨s.writeReg x (s.reg y), rfl, State.reg_writeReg_same s x _, writeReg_frame s x _⟩

/-- Settles O20: one write of Vx, whose byte is the sum modulo 2 ^ 8; VF is framed with the other
registers. -/
theorem addImmediateWrapsWithoutFlag : Obligations.AddImmediateWrapsWithoutFlag := by
  intro x nn s
  refine ⟨s.writeReg x (s.reg x + nn), rfl, ?sum, writeReg_frame s x _⟩
  case sum => rw [State.reg_writeReg_same, BitVec.toNat_add]

/-- Settles O36: both loads are one write of `I`, whose value is NNN, or the glyph address that does
not wrap. -/
theorem indexLoads : Obligations.IndexLoads := by
  intro nnn x s
  refine List.forall_mem_cons.2 ⟨?ldI, List.forall_mem_singleton.2 ?ldFVx⟩
  case ldI => exact ⟨s.setI (zextImm nnn), rfl, toNat_zextImm nnn, setI_frame s _⟩
  case ldFVx =>
    exact ⟨s.setI (glyphAddress (s.reg x)), rfl, toNat_glyphAddress _, setI_frame s _⟩

end Sys2Proof.Machine

/-! ## Timer transfers (`46_timer_index_memory.md` R166 to R168): what writing one timer leaves
unchanged -/

namespace Sys2Proof.Machine

/-- The frame of every instruction that writes DT only; ST is framed apart from it. -/
theorem setDT_frame (s : State) (b : Byte) :
    (s.setDT b).ST = s.ST ∧ SameRegsBut [] s (s.setDT b) ∧ (s.setDT b).pc = s.pc ∧
      (s.setDT b).I = s.I ∧ SameMemory s (s.setDT b) ∧ (s.setDT b).cfg = s.cfg ∧
      SameCallStack s (s.setDT b) ∧ (s.setDT b).waitKey = s.waitKey ∧ (s.setDT b).fb = s.fb ∧
      Quiet s (s.setDT b) :=
  ⟨rfl, fun _ _ => rfl, rfl, rfl, fun _ => rfl, rfl, ⟨rfl, rfl⟩, rfl, rfl, rfl, rfl⟩

/-- The frame of every instruction that writes ST only; DT is framed apart from it. -/
theorem setST_frame (s : State) (b : Byte) :
    (s.setST b).DT = s.DT ∧ SameRegsBut [] s (s.setST b) ∧ (s.setST b).pc = s.pc ∧
      (s.setST b).I = s.I ∧ SameMemory s (s.setST b) ∧ (s.setST b).cfg = s.cfg ∧
      SameCallStack s (s.setST b) ∧ (s.setST b).waitKey = s.waitKey ∧ (s.setST b).fb = s.fb ∧
      Quiet s (s.setST b) :=
  ⟨rfl, fun _ _ => rfl, rfl, rfl, fun _ => rfl, rfl, ⟨rfl, rfl⟩, rfl, rfl, rfl, rfl⟩

/-- Settles O34: each transfer is one write, of Vx, of DT or of ST, which reads back as the byte
written. -/
theorem timerTransfers : Obligations.TimerTransfers := by
  intro x s
  refine ⟨?ldVxDt, ?ldDtVx, ?ldStVx⟩
  case ldVxDt =>
    exact ⟨s.writeReg x s.DT, rfl, State.reg_writeReg_same s x s.DT, writeReg_frame s x s.DT⟩
  case ldDtVx =>
    exact ⟨s.setDT (s.reg x), rfl, State.setDT_DT s (s.reg x), setDT_frame s (s.reg x)⟩
  case ldStVx =>
    exact ⟨s.setST (s.reg x), rfl, State.setST_ST s (s.reg x), setST_frame s (s.reg x)⟩

end Sys2Proof.Machine

/-! ## The reset event (`70_reset_and_hazards.md` R203, R210, R212): when it is refused, and where the
ROM lies -/

namespace Sys2Proof.Machine.State

/-- R203: a ROM above the limit is refused by name. -/
theorem resetEvent_of_oversized {s : State} {rom : List Byte} (h : romLimit s.cfg < rom.length) :
    s.resetEvent rom = .refused (.oversizedRom rom.length) :=
  if_pos h

/-- R210: every other ROM is loaded. -/
theorem resetEvent_of_fits {s : State} {rom : List Byte} (h : rom.length ≤ romLimit s.cfg) :
    s.resetEvent rom = .next (s.boot rom) :=
  if_neg (Nat.not_lt.2 h)

/-- The ROM lies from the reset entry on. -/
theorem peek_boot_rom (s : State) (rom : List Byte) {i : Nat} (h : i < rom.length) :
    (s.boot rom).peek (romBase + i) = rom[i] :=
  peek_pokeMany_inside _ romBase rom h

/-- The last byte of a ROM of exactly the limit is the last byte of memory. -/
theorem peek_boot_last {s : State} {rom : List Byte} {b : Byte}
    (hlen : rom.length = romLimit s.cfg) (hb : rom.getLast? = some b) :
    (s.boot rom).peek (s.cfg.memSize - 1) = b := by
  rw [List.getLast?_eq_getElem?] at hb
  obtain ⟨hlast, rfl⟩ := List.getElem?_eq_some_iff.1 hb
  have haddr : s.cfg.memSize - 1 = romBase + (rom.length - 1) := by
    unfold romLimit at hlen
    omega
  rw [haddr, peek_boot_rom s rom hlast]

end Sys2Proof.Machine.State

namespace Sys2Proof.Machine

/-- Settles O56: the comparison with the limit decides between refusal and loading, and a ROM of
exactly the limit ends where memory does. -/
theorem romSizeLimit : Obligations.RomSizeLimit := by
  refine ⟨fun rom s _ => ⟨?oversized, ?fits⟩, ?taken⟩
  case oversized => exact State.resetEvent_of_oversized
  case fits =>
    intro h
    exact ⟨s.boot rom, State.resetEvent_of_fits h, fun b => State.peek_boot_last⟩
  case taken =>
    intro s hsize
    rw [romLimit, hsize]
    rfl

end Sys2Proof.Machine

/-! ## Decoder and encoder (`30_encoding.md` R70 to R78): each direction gives the other back, the
rejected words, and the opcode map -/

namespace Sys2Proof

/-- Settles O1, format by format: the family nibble selects the decoder's arm, a fixed N or NN the
arm's row, and the operand fields read back. Row 3's side condition keeps `SYS` off the words of
`CLS` and `RET`. -/
theorem decodeOfEncodeIsTheInstruction : Obligations.DecodeOfEncodeIsTheInstruction := by
  intro i hi
  cases i
  case cls | ret => rfl
  case sys nnn =>
    simp only [Instr.wellFormed, Bool.and_eq_true, bne_iff_ne] at hi
    simp [decode, encode, decodeFamily0, hi]
  case jp | call | ldI | jpV0 => simp [decode, encode]
  case seImm | sneImm | ldImm | addImm | rnd => simp [decode, encode]
  case seReg | sneReg | drw => simp [decode, encode]
  case ldReg | orReg | andReg | xorReg | addReg | subReg | shrReg | subnReg | shlReg =>
    simp [decode, encode, decodeFamily8]
  case skp | sknp => simp [decode, encode, decodeFamilyE]
  case ldVxDt | ldVxK | ldDtVx | ldStVx | addIVx | ldFVx | ldBVx | ldMemVx | ldVxMem =>
    simp [decode, encode, decodeFamilyF]

/-! ### A word from its fields, some of them known -/

variable {op : Word} {f x y n : Nibble} {nn : Byte} {nnn : Imm12}

theorem formatNNN_of_fields (hf : fieldF op = f) : formatNNN f (fieldNNN op) = op := by
  rw [← hf, formatNNN_fields]

theorem formatXNN_of_fields (hf : fieldF op = f) (hnn : fieldNN op = nn) :
    formatXNN f (fieldX op) nn = op := by
  rw [← hf, ← hnn, formatXNN_fields]

theorem formatXYN_of_fields (hf : fieldF op = f) (hn : fieldN op = n) :
    formatXYN f (fieldX op) (fieldY op) n = op := by
  rw [← hf, ← hn, formatXYN_fields]

/-! ### What the arms of the decoder that look further accept -/

theorem encode_of_decodeFamily0 {i : Instr} (hf : fieldF op = 0x0#4)
    (h : decodeFamily0 op = .ok i) : encode i = op ∧ i.wellFormed = true := by
  have hop := formatNNN_of_fields hf
  unfold decodeFamily0 at h
  split at h
  · next hnnn => cases h; exact ⟨by rw [← hop, hnnn]; rfl, rfl⟩
  · split at h
    · next hnnn => cases h; exact ⟨by rw [← hop, hnnn]; rfl, rfl⟩
    · next hcls hret => cases h; exact ⟨hop, by simp [Instr.wellFormed, hcls, hret]⟩

theorem encode_of_decodeFamily8 {i : Instr} (hf : fieldF op = 0x8#4)
    (h : decodeFamily8 op = .ok i) : encode i = op ∧ i.wellFormed = true := by
  unfold decodeFamily8 at h
  split at h <;> cases h
  all_goals
    next hn => exact ⟨formatXYN_of_fields hf (BitVec.eq_of_toNat_eq hn), rfl⟩

theorem encode_of_decodeFamilyE {i : Instr} (hf : fieldF op = 0xE#4)
    (h : decodeFamilyE op = .ok i) : encode i = op ∧ i.wellFormed = true := by
  unfold decodeFamilyE at h
  repeat' split at h
  all_goals cases h
  all_goals next hnn => exact ⟨formatXNN_of_fields hf hnn, rfl⟩

theorem encode_of_decodeFamilyF {i : Instr} (hf : fieldF op = 0xF#4)
    (h : decodeFamilyF op = .ok i) : encode i = op ∧ i.wellFormed = true := by
  unfold decodeFamilyF at h
  repeat' split at h
  all_goals cases h
  all_goals next hnn => exact ⟨formatXNN_of_fields hf hnn, rfl⟩

/-- The family of a word whose family nibble is none of the fifteen below `F`. -/
theorem fieldF_eq_F (h : ∀ k, k < 0xF → (fieldF op).toNat ≠ k) : fieldF op = 0xF#4 := by
  have hlt := (fieldF op).isLt
  have hge : ¬ (fieldF op).toNat < 0xF := fun hk => h _ hk rfl
  apply BitVec.eq_of_toNat_eq
  show (fieldF op).toNat = 0xF
  omega

/-- Settles O2: in each family the word is put together again from the fields the instruction
carries and the ones the decoder has tested. -/
theorem encodeOfDecodeIsTheWord : Obligations.EncodeOfDecodeIsTheWord := by
  intro op i h
  unfold decode at h
  -- the arms in R74's order, family `f` in arm `f + 1`: first the four families that look further
  split at h
  case h_1 hf => exact encode_of_decodeFamily0 (BitVec.eq_of_toNat_eq hf) h
  case h_9 hf => exact encode_of_decodeFamily8 (BitVec.eq_of_toNat_eq hf) h
  case h_15 hf => exact encode_of_decodeFamilyE (BitVec.eq_of_toNat_eq hf) h
  case h_16 => exact encode_of_decodeFamilyF (fieldF_eq_F (by grind)) h
  case h_2 hf | h_3 hf | h_11 hf | h_12 hf =>
    cases h
    exact ⟨formatNNN_of_fields (BitVec.eq_of_toNat_eq hf), rfl⟩
  case h_4 hf | h_5 hf | h_7 hf | h_8 hf | h_13 hf =>
    cases h
    exact ⟨formatXNN_of_fields (BitVec.eq_of_toNat_eq hf) rfl, rfl⟩
  case h_6 hf | h_10 hf | h_14 hf =>
    cases h
    exact ⟨formatXYN_of_fields (BitVec.eq_of_toNat_eq hf) rfl, rfl⟩

/-! ### What the decoder rejects -/

theorem decodeFamily0_ne_error (op : Word) (e : Reject) : decodeFamily0 op ≠ .error e := by
  unfold decodeFamily0
  repeat' split
  all_goals simp

/-- The function codes family 8 gives no instruction are those the decoder does not match. -/
theorem mem_unknownFamily8_iff (n : Nibble) :
    n ∈ [0x8#4, 0x9#4, 0xA#4, 0xB#4, 0xC#4, 0xD#4, 0xF#4] ↔
      n.toNat ∉ [0x0, 0x1, 0x2, 0x3, 0x4, 0x5, 0x6, 0x7, 0xE] := by
  revert n
  decide

theorem decodeFamily8_error_iff {e : Reject} : decodeFamily8 op = .error e ↔
    e = .unknownFamily8 op ∧
      fieldN op ∈ [0x8#4, 0x9#4, 0xA#4, 0xB#4, 0xC#4, 0xD#4, 0xF#4] := by
  rw [mem_unknownFamily8_iff]
  unfold decodeFamily8
  split
  all_goals simp_all [eq_comm]

theorem decodeFamilyE_error_iff {e : Reject} : decodeFamilyE op = .error e ↔
    e = .unknownFamilyE op ∧ fieldNN op ∉ [0x9E#8, 0xA1#8] := by
  unfold decodeFamilyE
  repeat' split
  all_goals simp_all [eq_comm]

theorem decodeFamilyF_error_iff {e : Reject} : decodeFamilyF op = .error e ↔
    e = .unknownFamilyF op ∧
      fieldNN op ∉ [0x07#8, 0x0A#8, 0x15#8, 0x18#8, 0x1E#8, 0x29#8, 0x33#8, 0x55#8, 0x65#8] := by
  unfold decodeFamilyF
  repeat' split
  all_goals simp_all [eq_comm]

/-- Settles O4: a word of another family is accepted, and in families 8, E and F the reason and the
function codes are those of the family's own decoder. -/
theorem unknownWordsAreTheThreeRows : Obligations.UnknownWordsAreTheThreeRows := by
  intro op e
  unfold decode
  -- the arms of families 8, E and F, then the others, none of which rejects a word
  split
  case h_9 hf =>
    have hf : fieldF op = 0x8#4 := BitVec.eq_of_toNat_eq hf
    simp [hf, decodeFamily8_error_iff]
  case h_15 hf =>
    have hf : fieldF op = 0xE#4 := BitVec.eq_of_toNat_eq hf
    simp [hf, decodeFamilyE_error_iff]
  case h_16 =>
    have hf : fieldF op = 0xF#4 := fieldF_eq_F (by grind)
    simp [hf, decodeFamilyF_error_iff]
  all_goals
    next hf =>
      simp [← BitVec.toNat_inj, hf, decodeFamily0_ne_error]

/-! ### The opcode map -/

theorem fieldF_and (a b : Word) : fieldF (a &&& b) = fieldF a &&& fieldF b :=
  BitVec.extractLsb'_and

theorem fieldN_and (a b : Word) : fieldN (a &&& b) = fieldN a &&& fieldN b :=
  BitVec.extractLsb'_and

theorem fieldNN_and (a b : Word) : fieldNN (a &&& b) = fieldNN a &&& fieldNN b :=
  BitVec.extractLsb'_and

theorem OpcodeRow.selects_iff {row : OpcodeRow} :
    row.selects op = true ↔ op &&& row.mask = row.pattern :=
  beq_iff_eq

/-- Every instruction's encoding is selected by its own row. -/
theorem row_selects_encode (i : Instr) : i.row.selects (encode i) = true := by
  open Laws.TableRow in
  cases i
  case cls | ret => decide
  case sys | jp | call | ldI | jpV0 => exact selects_of_mask (mask_nnn ..)
  case seImm | sneImm | ldImm | addImm | rnd => exact selects_of_mask (mask_xnn ..)
  case seReg | sneReg | drw => exact selects_of_mask (mask_xyn ..)
  case ldReg | orReg | andReg | xorReg | addReg | subReg | shrReg | subnReg | shlReg =>
    exact selects_of_mask (mask_xyn_family8 ..)
  case skp | sknp | ldVxDt | ldVxK | ldDtVx | ldStVx | addIVx | ldFVx | ldBVx | ldMemVx |
      ldVxMem =>
    exact selects_of_mask (mask_xnn_low ..)

/-- Two rows that select one word agree where both their masks look. -/
theorem OpcodeRow.agree_of_selects {row row' : OpcodeRow} (h : row.selects op = true)
    (h' : row'.selects op = true) : row.pattern &&& row'.mask = row'.pattern &&& row.mask := by
  rw [← selects_iff.1 h, ← selects_iff.1 h', BitVec.and_assoc, BitVec.and_assoc,
    BitVec.and_comm row.mask]

/-- The row of `SYS`, whose words include those of `CLS` and `RET` (R77). -/
def sysRow : OpcodeRow := (Instr.sys 0#12).row

/-- The only rows of the map that overlap are the one of `SYS` with those of `CLS` and `RET`. -/
theorem opcodeMap_overlap : ∀ row ∈ opcodeMap, ∀ row' ∈ opcodeMap, row' ≠ row →
    row.pattern &&& row'.mask = row'.pattern &&& row.mask →
    row'.mask.toNat < row.mask.toNat ∨
      row = sysRow ∧ (row' = Instr.cls.row ∨ row' = Instr.ret.row) := by
  decide

/-- What a row of the map fixes: the family always, in family 8 the N and in families E and F the NN
of an instruction (R75). -/
theorem opcodeMap_fixes : ∀ row ∈ opcodeMap, fieldF row.mask = 0xF#4 ∧
    (fieldF row.pattern = 0x8#4 → fieldN row.mask = 0xF#4 ∧
      fieldN row.pattern ∉ [0x8#4, 0x9#4, 0xA#4, 0xB#4, 0xC#4, 0xD#4, 0xF#4]) ∧
    (fieldF row.pattern = 0xE#4 → fieldNN row.mask = 0xFF#8 ∧
      fieldNN row.pattern ∈ [0x9E#8, 0xA1#8]) ∧
    (fieldF row.pattern = 0xF#4 → fieldNN row.mask = 0xFF#8 ∧ fieldNN row.pattern ∈
      [0x07#8, 0x0A#8, 0x15#8, 0x18#8, 0x1E#8, 0x29#8, 0x33#8, 0x55#8, 0x65#8]) := by
  decide

/-- No row of the map selects a rejected word: the row would fix the family, and in it a function
code that an instruction has. -/
theorem not_selects_of_decode_error {e : Reject} (h : decode op = .error e) {row : OpcodeRow}
    (hrow : row ∈ opcodeMap) : row.selects op = false := by
  refine Bool.eq_false_iff.2 fun hsel => ?_
  have hop := OpcodeRow.selects_iff.1 hsel
  obtain ⟨hfamily, h8, hE, hF⟩ := opcodeMap_fixes row hrow
  have hf : fieldF row.pattern = fieldF op := by
    rw [← hop, fieldF_and, hfamily]
    exact BitVec.and_allOnes
  rw [hf] at h8 hE hF
  have hn (hmask : fieldN row.mask = 0xF#4) : fieldN row.pattern = fieldN op := by
    rw [← hop, fieldN_and, hmask]
    exact BitVec.and_allOnes
  have hnn (hmask : fieldNN row.mask = 0xFF#8) : fieldNN row.pattern = fieldNN op := by
    rw [← hop, fieldNN_and, hmask]
    exact BitVec.and_allOnes
  rcases (unknownWordsAreTheThreeRows op e).1 h with
    ⟨hfam, -, hcode⟩ | ⟨hfam, -, hcode⟩ | ⟨hfam, -, hcode⟩
  · obtain ⟨hmask, hpattern⟩ := h8 hfam
    exact hpattern (hn hmask ▸ hcode)
  · obtain ⟨hmask, hpattern⟩ := hE hfam
    exact hcode (hnn hmask ▸ hpattern)
  · obtain ⟨hmask, hpattern⟩ := hF hfam
    exact hcode (hnn hmask ▸ hpattern)

/-- The word of an instruction with the row of `SYS` is neither that of `CLS` nor that of `RET`. -/
theorem row_ne_sysRow {i : Instr} (h : decode op = .ok i)
    (hsel : Instr.cls.row.selects op = true ∨ Instr.ret.row.selects op = true) :
    i.row ≠ sysRow := by
  have hword (row : OpcodeRow) (hmask : row.mask = BitVec.allOnes 16)
      (h : row.selects op = true) : op = row.pattern := by
    rw [← OpcodeRow.selects_iff.1 h, hmask, BitVec.and_allOnes]
  rcases hsel with hsel | hsel
  · rw [hword _ rfl hsel] at h
    cases h
    decide
  · rw [hword _ rfl hsel] at h
    cases h
    decide

/-- Settles O3: an accepted word is the encoding of its instruction, which the instruction's own row
selects; a second row that selects it overlaps that row, and only rows with a smaller mask do. -/
theorem decoderAgreesWithOpcodeMap : Obligations.DecoderAgreesWithOpcodeMap := by
  intro op
  split
  next i h =>
    obtain ⟨hop, -⟩ := encodeOfDecodeIsTheWord op i h
    have hown : i.row.selects op = true := hop ▸ row_selects_encode i
    refine ⟨Laws.TableRow.row_mem i, hown, fun row hrow hsel hne => ?_⟩
    have hagree := OpcodeRow.agree_of_selects hown hsel
    rcases opcodeMap_overlap _ (Laws.TableRow.row_mem i) row hrow hne hagree with
      hlt | ⟨hsys, rfl | rfl⟩
    · exact hlt
    · exact absurd hsys (row_ne_sysRow h (.inl hsel))
    · exact absurd hsys (row_ne_sysRow h (.inr hsel))
  next e h => exact fun row hrow => not_selects_of_decode_error h hrow

/-- Settles O5: each word is decoded. -/
theorem spelledOutWordsDecode : Obligations.SpelledOutWordsDecode :=
  ⟨rfl, rfl, rfl, rfl, rfl, rfl, rfl⟩

end Sys2Proof

/-! ## What an instruction can do, said once: every statement about all instructions is a case
analysis on `Effect` -/

namespace Sys2Proof.Machine

/-- `Effect s i t`: the instruction `i`, run in `s`, may leave `t`. One case per operation that does
the work; every instruction's next state is one of them (`exec_effect`). -/
inductive Effect (s : State) : Instr → State → Prop
  /-- A fault taken before anything is written (R188). -/
  | raised {i : Instr} {f : Fault} (listed : MayRaise i s f)
      (precise : ∀ ia, f ≠ .displayFlushFailure ia) : Effect s i (s.raise f)
  | reported (nnn : Imm12) : Effect s (.sys nnn) (s.diag .nativeCall (zextImm nnn))
  | cleared : Effect s .cls s.clearFb.present
  | drawn (x y : RegIdx) (n : Nibble) : Effect s (.drw x y n) (s.drawSprite x y n).present
  | returned : Effect s .ret (s.pop.setPc (s.stackAt (s.sp - 1)))
  | called (nnn : Imm12) (room : s.sp < s.cfg.stackDepth) :
      Effect s (.call nnn) ((s.push s.pc).setPc (zextImm nnn))
  | jumped (nnn : Imm12) : Effect s (.jp nnn) (s.setPc (zextImm nnn))
  | jumpedV0 (nnn : Imm12) :
      Effect s (.jpV0 nnn) (s.setPc (zextImm nnn + zextByte (s.reg 0x0#4)))
  /-- The skip primitive, no question asked. -/
  | skipped {i : Instr} (taken : Bool) (skips : i.skips = true) : Effect s i (s.skipIf taken)
  /-- The skip primitive, after `KeyDown` was asked. -/
  | askedKey {i : Instr} (taken : Bool) (skips : i.skips = true) :
      Effect s i (s.afterKey.skipIf taken)
  /-- One register written, no flag. -/
  | loaded {i : Instr} (x : RegIdx) (b : Byte) (dest : i.destination = some x)
      (noFlag : i.writesFlag = false) : Effect s i (s.writeReg x b)
  | randomized (x : RegIdx) (nn b : Byte) : Effect s (.rnd x nn) (s.afterRnd.writeReg x b)
  | flaggedLast {i : Instr} (x : RegIdx) (r : Byte) (flag : Bool) (dest : i.destination = some x)
      (flags : i.writesFlag = true) : Effect s i (s.resultThenFlag x r (flagByte flag))
  | flaggedFirst {i : Instr} (x : RegIdx) (r : Byte) (flag : Bool) (dest : i.destination = some x)
      (flags : i.writesFlag = true) : Effect s i (s.flagThenResult x r (flagByte flag))
  | indexed {i : Instr} (w : Word)
      (index : (∃ nnn, i = .ldI nnn) ∨ ∃ x, i = .addIVx x ∨ i = .ldFVx x) : Effect s i (s.setI w)
  | delayed (x : RegIdx) : Effect s (.ldDtVx x) (s.setDT (s.reg x))
  | sounded (x : RegIdx) : Effect s (.ldStVx x) (s.setST (s.reg x))
  | armed (x : RegIdx) : Effect s (.ldVxK x) ((s.setWaitKey .armed).setPc (s.pc - 2#16))
  | waited (x : RegIdx) : Effect s (.ldVxK x) (s.setPc (s.pc - 2#16))
  | delivered (x : RegIdx) (k : Key) :
      Effect s (.ldVxK x) ((s.writeReg x (zextKey k)).setWaitKey .notWaiting)
  | digits (x : RegIdx) (inside : s.I.toNat + 2 < s.cfg.memSize) :
      Effect s (.ldBVx x) (State.pokeMany s.I.toNat (bcdDigits (s.reg x)) s)
  | dumped (x : RegIdx) (inside : s.I.toNat + x.toNat < s.cfg.memSize) :
      Effect s (.ldMemVx x)
        ((State.pokeMany s.I.toNat (s.regsBelow (x.toNat + 1)) s).advanceI x)
  | filled (x : RegIdx) :
      Effect s (.ldVxMem x)
        ((State.writeRegsFrom 0 (s.peekMany s.I.toNat (x.toNat + 1)) s).advanceI x)

variable {i : Instr} {s t : State}

/-- The three transfers and the draw raise the same memory fault. -/
theorem Effect.memoryFault
    (h : (∃ x y n, i = .drw x y n) ∨ (∃ x, i = .ldBVx x) ∨ (∃ x, i = .ldMemVx x) ∨
      ∃ x, i = .ldVxMem x) :
    Effect s i (s.raise (.memoryOutOfRange (max s.I.toNat s.cfg.memSize))) :=
  .raised ⟨h, rfl⟩ nofun

theorem Effect.skipOnKey (x : RegIdx) (want : Bool) (h : i = .skp x ∨ i = .sknp x) :
    Effect s i (s.skipOnKey x want) := by
  rcases skipOnKey_cases s x want with ⟨habove, e⟩ | ⟨-, taken, e⟩
  · rw [e]
    exact .raised ⟨x, h, rfl, habove⟩ nofun
  · rw [e]
    exact .askedKey taken (by rcases h with rfl | rfl <;> rfl)

/-- Every instruction's next state is one of the cases of `Effect`. -/
theorem exec_effect (h : exec i s = .next t) : Effect s i t := by
  cases i
  case cls => cases h; exact .cleared
  case sys nnn => cases h; exact .reported nnn
  case jp nnn => cases h; exact .jumped nnn
  case jpV0 nnn => cases h; exact .jumpedV0 nnn
  case ret =>
    rcases execRet_cases h with ⟨-, rfl⟩ | ⟨-, rfl⟩
    · exact .raised ⟨rfl, rfl⟩ nofun
    · exact .returned
  case call nnn =>
    rcases execCall_cases h with ⟨-, rfl⟩ | ⟨hroom, rfl⟩
    · exact .raised ⟨⟨nnn, rfl⟩, rfl⟩ nofun
    · exact .called nnn hroom
  case seImm | sneImm | seReg | sneReg => cases h; exact .skipped _ rfl
  case skp x => cases h; exact .skipOnKey x _ (.inl rfl)
  case sknp x => cases h; exact .skipOnKey x _ (.inr rfl)
  case ldImm | addImm | ldReg | ldVxDt => cases h; exact .loaded _ _ rfl rfl
  case rnd x nn => cases h; exact .randomized x nn _
  case orReg | andReg | xorReg | addReg => cases h; exact .flaggedLast _ _ _ rfl rfl
  case subReg | shrReg | subnReg | shlReg => cases h; exact .flaggedFirst _ _ _ rfl rfl
  case ldI nnn => cases h; exact .indexed _ (.inl ⟨nnn, rfl⟩)
  case addIVx x => cases h; exact .indexed _ (.inr ⟨x, .inl rfl⟩)
  case ldFVx x => cases h; exact .indexed _ (.inr ⟨x, .inr rfl⟩)
  case ldDtVx x => cases h; exact .delayed x
  case ldStVx x => cases h; exact .sounded x
  case ldVxK x =>
    rcases execLdVxK_cases h with ⟨-, rfl⟩ | ⟨-, rfl⟩ | ⟨k, -, rfl⟩
    · exact .armed x
    · exact .waited x
    · exact .delivered x k
  case drw x y n =>
    rcases execDrw_cases h with ⟨f, hf, rfl⟩ | ⟨-, rfl⟩
    · obtain ⟨rfl, -⟩ := drawFault_some hf
      exact .memoryFault (.inl ⟨x, y, n, rfl⟩)
    · exact .drawn x y n
  case ldBVx x =>
    rcases execLdBVx_cases h with ⟨f, hf, rfl⟩ | ⟨hf, rfl⟩
    · obtain ⟨rfl, -⟩ := State.spanFault_some hf
      exact .memoryFault (.inr (.inl ⟨x, rfl⟩))
    · exact .digits x (State.spanFault_eq_none.1 hf)
  case ldMemVx x =>
    rcases execLdMemVx_cases h with ⟨f, hf, rfl⟩ | ⟨hf, rfl⟩
    · obtain ⟨rfl, -⟩ := State.spanFault_some hf
      exact .memoryFault (.inr (.inr (.inl ⟨x, rfl⟩)))
    · exact .dumped x (State.spanFault_eq_none.1 hf)
  case ldVxMem x =>
    rcases execLdVxMem_cases h with ⟨f, hf, rfl⟩ | ⟨hf, rfl⟩
    · obtain ⟨rfl, -⟩ := State.spanFault_some hf
      exact .memoryFault (.inr (.inr (.inr ⟨x, rfl⟩)))
    · exact .filled x

end Sys2Proof.Machine

/-! ## The invariant: every instruction, every step and every event keeps it -/

namespace Sys2Proof.Machine

variable {i : Instr} {s t : State}

/-! ### What drawing leaves unchanged -/

@[simp] theorem drawSprite_cfg (s : State) (x y : RegIdx) (n : Nibble) :
    (s.drawSprite x y n).cfg = s.cfg := by
  rw [drawSprite_eq]

@[simp] theorem drawSprite_mem (s : State) (x y : RegIdx) (n : Nibble) :
    (s.drawSprite x y n).mem = s.mem := by
  rw [drawSprite_eq]

@[simp] theorem drawSprite_pc (s : State) (x y : RegIdx) (n : Nibble) :
    (s.drawSprite x y n).pc = s.pc := by
  rw [drawSprite_eq]

@[simp] theorem drawSprite_I (s : State) (x y : RegIdx) (n : Nibble) :
    (s.drawSprite x y n).I = s.I := by
  rw [drawSprite_eq]

@[simp] theorem drawSprite_stack (s : State) (x y : RegIdx) (n : Nibble) :
    (s.drawSprite x y n).stack = s.stack := by
  rw [drawSprite_eq]

@[simp] theorem drawSprite_sp (s : State) (x y : RegIdx) (n : Nibble) :
    (s.drawSprite x y n).sp = s.sp := by
  rw [drawSprite_eq]

@[simp] theorem drawSprite_DT (s : State) (x y : RegIdx) (n : Nibble) :
    (s.drawSprite x y n).DT = s.DT := by
  rw [drawSprite_eq]

@[simp] theorem drawSprite_ST (s : State) (x y : RegIdx) (n : Nibble) :
    (s.drawSprite x y n).ST = s.ST := by
  rw [drawSprite_eq]

@[simp] theorem drawSprite_waitKey (s : State) (x y : RegIdx) (n : Nibble) :
    (s.drawSprite x y n).waitKey = s.waitKey := by
  rw [drawSprite_eq]

@[simp] theorem drawSprite_fault (s : State) (x y : RegIdx) (n : Nibble) :
    (s.drawSprite x y n).fault = s.fault := by
  rw [drawSprite_eq]

@[simp] theorem drawSprite_env (s : State) (x y : RegIdx) (n : Nibble) :
    (s.drawSprite x y n).env = s.env := by
  rw [drawSprite_eq]

/-! ### Instructions -/

/-- An instruction keeps the configuration. -/
theorem Effect.sameCfg (h : Effect s i t) : t.cfg = s.cfg := by
  cases h
  case drawn | digits | dumped | filled => simp [State.advanceI]
  all_goals rfl

/-- Storing inside `mem` keeps the invariant. -/
theorem State.Inv.pokeMany (hs : s.Inv) {a : Nat} {bs : List Byte}
    (ha : a + bs.length ≤ s.cfg.memSize) : (State.pokeMany a bs s).Inv := by
  obtain ⟨hcfg, hmem, hstack, hsp, hfb⟩ := hs
  have hwf := State.wf_pokeMany s a bs hmem ha
  rw [State.pokeMany_eq] at hwf ⊢
  exact ⟨hcfg, hwf, hstack, hsp, hfb⟩

/-- Drawing keeps the invariant. -/
theorem State.Inv.drawSprite (hs : s.Inv) (x y : RegIdx) (n : Nibble) :
    (s.drawSprite x y n).Inv := by
  obtain ⟨hcfg, hmem, hstack, hsp, hfb⟩ := hs
  have hshape := (painted_drawSprite hfb x y n).shape
  rw [drawSprite_eq]
  exact ⟨hcfg, hmem, hstack, hsp, hshape⟩

/-- An instruction keeps the invariant: the entries in use stay in bounds, what is stored lies in
`mem`, the grid keeps its shape; every other case writes none of the elements it speaks of. -/
theorem Effect.inv (h : Effect s i t) (hs : s.Inv) : t.Inv := by
  cases h
  case returned =>
    obtain ⟨hcfg, hmem, hstack, hsp, hfb⟩ := hs
    exact ⟨hcfg, hmem, hstack, (Nat.sub_le ..).trans hsp, hfb⟩
  case called nnn hroom =>
    obtain ⟨hcfg, hmem, hstack, hsp, hfb⟩ := hs
    exact ⟨hcfg, hmem, List.length_set.trans hstack, hroom, hfb⟩
  case cleared =>
    obtain ⟨hcfg, hmem, hstack, hsp, -⟩ := hs
    exact ⟨hcfg, hmem, hstack, hsp, gridShape_darkGrid _⟩
  case drawn x y n => exact hs.drawSprite x y n
  case digits x hinside => exact hs.pokeMany hinside
  case dumped x hinside =>
    exact hs.pokeMany (by rw [State.length_regsBelow]; exact hinside)
  case filled =>
    rw [State.writeRegsFrom_eq]
    exact hs
  all_goals exact hs

/-- A step keeps the configuration and the invariant. -/
theorem step_keeps (h : step s = .next t) (hs : s.Inv) : t.Inv ∧ t.cfg = s.cfg := by
  rcases step_cases h with ⟨f, -, rfl⟩ | ⟨f, -, -, rfl⟩ | ⟨op, i, -, -, -, hi⟩ |
    ⟨op, e, -, -, -, rfl⟩
  · exact ⟨hs, rfl⟩
  · exact ⟨hs, rfl⟩
  · exact ⟨(exec_effect hi).inv hs, (exec_effect hi).sameCfg⟩
  · exact ⟨hs, rfl⟩

/-- Settles O58: the step does nothing, latches a fetch fault, runs an instruction, or passes over an
unknown word. -/
theorem stepKeepsTheInvariant : Obligations.StepKeepsTheInvariant :=
  fun _ _ hs h => (step_keeps h hs).1

/-- The state after a reset with an empty ROM meets the invariant, for every legal configuration. -/
theorem inv_resetFor {cfg : Config} (h : cfg.Legal) : (State.resetFor cfg).Inv :=
  ⟨h, Memory.wf_nil cfg, List.length_replicate, Nat.zero_le _, gridShape_darkGrid cfg⟩

/-- Settles O57: the parameter values the spec takes are legal. -/
theorem resetMeetsTheInvariant : Obligations.ResetMeetsTheInvariant :=
  inv_resetFor (by decide)

@[simp] theorem boot_cfg (s : State) (rom : List Byte) : (s.boot rom).cfg = s.cfg :=
  State.pokeMany_cfg _ _ _

/-- A ROM that fits is stored inside `mem`. -/
theorem inv_boot (hcfg : s.cfg.Legal) {rom : List Byte} (h : rom.length ≤ romLimit s.cfg) :
    (s.boot rom).Inv := by
  have hbase : (State.resetFor s.cfg).Inv := inv_resetFor hcfg
  have hfits : romBase + rom.length ≤ s.cfg.memSize := by
    obtain ⟨hmin, -⟩ := hcfg
    unfold romLimit romBase at h
    unfold romBase
    omega
  exact State.Inv.pokeMany (s := { State.resetFor s.cfg with env := s.env }) hbase hfits

/-- `reset` answers the rebuilt state, and only for a ROM that fits. -/
theorem resetEvent_cases {rom : List Byte} (h : s.resetEvent rom = .next t) :
    rom.length ≤ romLimit s.cfg ∧ t = s.boot rom := by
  unfold State.resetEvent at h
  split at h
  · cases h
  · next hfits => cases h; exact ⟨Nat.not_lt.1 hfits, rfl⟩

/-- `tick60` counts both timers down, or is ignored. -/
theorem tick60_cases (s : State) :
    s.tick60 = s ∨ s.tick60 = (s.setDT (countDown s.DT)).setST (countDown s.ST) := by
  unfold State.tick60
  split
  · exact .inl rfl
  · exact .inr rfl

/-- `key_release` is captured, or is ignored. -/
theorem keyRelease_cases (s : State) (k : Key) :
    s.keyRelease k = s ∨ s.keyRelease k = s.setWaitKey (.captured k) := by
  unfold State.keyRelease
  split
  · exact .inr rfl
  · exact .inl rfl

/-- Every event keeps the configuration and the invariant. -/
theorem applyEvent_keeps {e : Event} (h : applyEvent e s = .next t) (hs : s.Inv) :
    t.Inv ∧ t.cfg = s.cfg := by
  cases e with
  | reset rom =>
    obtain ⟨hfits, rfl⟩ := resetEvent_cases h
    exact ⟨inv_boot hs.1 hfits, boot_cfg s rom⟩
  | step => exact step_keeps h hs
  | tick60 =>
    cases h
    rcases tick60_cases s with e | e <;> rw [e] <;> exact ⟨hs, rfl⟩
  | keyRelease k =>
    cases h
    rcases keyRelease_cases s k with e | e <;> rw [e] <;> exact ⟨hs, rfl⟩

/-- A run that answers a state begins with an event that does. -/
theorem runEvents_cons {e : Event} {es : List Event} (h : runEvents (e :: es) s = .next t) :
    ∃ u, applyEvent e s = .next u ∧ runEvents es u = .next t := by
  unfold runEvents at h
  split at h
  · next u hu => exact ⟨u, hu, h⟩
  · cases h
  · cases h

/-- Settles O59, by induction on the list of events. -/
theorem runsKeepTheInvariant : Obligations.RunsKeepTheInvariant := by
  intro es
  induction es with
  | nil =>
    intro s t hs h
    cases h
    exact ⟨hs, rfl⟩
  | cons e es ih =>
    intro s t hs h
    obtain ⟨u, he, hes⟩ := runEvents_cons h
    obtain ⟨hu, hcfg⟩ := applyEvent_keeps he hs
    obtain ⟨ht, hcfg'⟩ := ih u t hu hes
    exact ⟨ht, hcfg'.trans hcfg⟩

end Sys2Proof.Machine

/-! ## Whole-machine rules (`10_state.md` R22 to R31, R36, `20_memory.md` R57, R63,
`60_exceptions.md` R181, R182, R188): one case analysis on `Effect` for each element -/

namespace Sys2Proof.Instr

variable {i : Instr}

/-- The instructions that put something out (R36). -/
def reports : Instr → Bool
  | .sys _ | .cls | .drw _ _ _ => true
  | _ => false

theorem not_writesFlag_of_skips (h : i.skips = true) : i.writesFlag = false := by
  cases i
  case seImm | sneImm | seReg | sneReg | skp | sknp => rfl
  all_goals exact absurd h Bool.false_ne_true

theorem not_reports_of_skips (h : i.skips = true) : i.reports = false := by
  cases i
  case seImm | sneImm | seReg | sneReg | skp | sknp => rfl
  all_goals exact absurd h Bool.false_ne_true

theorem not_reports_of_destination {x : RegIdx} (h : i.destination = some x) :
    i.reports = false := by
  cases i
  case cls | sys | drw => cases h
  all_goals rfl

end Sys2Proof.Instr

namespace Sys2Proof.Machine

variable {i : Instr} {s t : State}

/-! ### Memory -/

/-- Storing a list of bytes changes no byte outside their range. -/
theorem State.mem_range_of_peek_pokeMany_ne {a b : Nat} {bs : List Byte}
    (h : (State.pokeMany a bs s).peek b ≠ s.peek b) : a ≤ b ∧ b < a + bs.length := by
  by_contra hout
  exact h (State.peek_pokeMany_outside s a bs (by omega))

/-- Settles O42: only the two stores write memory, FX33 three bytes and FX55 X + 1. -/
theorem onlyTransfersWriteMemory : Obligations.OnlyTransfersWriteMemory := by
  intro i s t h a hne
  cases exec_effect h
  case digits x _ =>
    obtain ⟨hlow, hhigh⟩ := State.mem_range_of_peek_pokeMany_ne hne
    exact .inl ⟨x, rfl, hlow, Nat.le_of_lt_succ hhigh⟩
  case dumped x _ =>
    obtain ⟨hlow, hhigh⟩ := State.mem_range_of_peek_pokeMany_ne hne
    rw [State.length_regsBelow] at hhigh
    exact .inr ⟨x, rfl, hlow, Nat.le_of_lt_succ hhigh⟩
  case drawn | filled =>
    exact absurd (State.peek_congr (by simp [State.advanceI]) (by simp [State.advanceI]) a) hne
  all_goals exact absurd rfl hne

/-! ### The other elements and their writers -/

theorem Effect.fb_writers (h : Effect s i t) (hne : t.fb ≠ s.fb) :
    i = .cls ∨ ∃ x y n, i = .drw x y n := by
  cases h
  case cleared => exact .inl rfl
  case drawn x y n => exact .inr ⟨x, y, n, rfl⟩
  case digits | dumped | filled => simp [State.advanceI] at hne
  all_goals exact absurd rfl hne

theorem Effect.callStack_writers (h : Effect s i t) (hne : ¬ SameCallStack s t) :
    i = .ret ∨ ∃ nnn, i = .call nnn := by
  cases h
  case returned => exact .inl rfl
  case called nnn _ => exact .inr ⟨nnn, rfl⟩
  case drawn | digits | dumped | filled => simp [SameCallStack, State.advanceI] at hne
  all_goals exact absurd ⟨rfl, rfl⟩ hne

theorem Effect.DT_writers (h : Effect s i t) (hne : t.DT ≠ s.DT) : ∃ x, i = .ldDtVx x := by
  cases h
  case delayed x => exact ⟨x, rfl⟩
  case drawn | digits | dumped | filled => simp [State.advanceI] at hne
  all_goals exact absurd rfl hne

theorem Effect.ST_writers (h : Effect s i t) (hne : t.ST ≠ s.ST) : ∃ x, i = .ldStVx x := by
  cases h
  case sounded x => exact ⟨x, rfl⟩
  case drawn | digits | dumped | filled => simp [State.advanceI] at hne
  all_goals exact absurd rfl hne

theorem Effect.waitKey_writers (h : Effect s i t) (hne : t.waitKey ≠ s.waitKey) :
    ∃ x, i = .ldVxK x := by
  cases h
  case armed x | delivered x _ => exact ⟨x, rfl⟩
  case drawn | digits | dumped | filled => simp [State.advanceI] at hne
  all_goals exact absurd rfl hne

theorem Effect.I_writers (h : Effect s i t) (hne : t.I ≠ s.I) :
    (∃ nnn, i = .ldI nnn) ∨
      ∃ x, i = .addIVx x ∨ i = .ldFVx x ∨ i = .ldMemVx x ∨ i = .ldVxMem x := by
  cases h
  case indexed _ index =>
    rcases index with hnnn | ⟨x, hx | hx⟩
    · exact .inl hnnn
    · exact .inr ⟨x, .inl hx⟩
    · exact .inr ⟨x, .inr (.inl hx)⟩
  case dumped x _ => exact .inr ⟨x, .inr (.inr (.inl rfl))⟩
  case filled x => exact .inr ⟨x, .inr (.inr (.inr rfl))⟩
  case drawn | digits => simp at hne
  all_goals exact absurd rfl hne

/-- Settles O43, element by element. -/
theorem eachElementHasItsWriters : Obligations.EachElementHasItsWriters := by
  intro i s t h
  have heffect := exec_effect h
  exact ⟨heffect.fb_writers, heffect.callStack_writers, heffect.DT_writers, heffect.ST_writers,
    heffect.waitKey_writers, heffect.I_writers⟩

/-! ### The program counter -/

/-- Settles O45. -/
theorem pcChangesOnlyInTheListedWays : Obligations.PcChangesOnlyInTheListedWays := by
  intro i s t h
  cases exec_effect h
  case skipped taken skips | askedKey taken skips =>
    cases taken
    · exact .inl rfl
    · exact .inr (.inl ⟨skips, rfl⟩)
  case jumped nnn => exact .inr (.inr (.inl ⟨nnn, .inl rfl, toNat_zextImm nnn⟩))
  case called nnn _ => exact .inr (.inr (.inl ⟨nnn, .inr rfl, toNat_zextImm nnn⟩))
  case jumpedV0 nnn =>
    exact .inr (.inr (.inr (.inl ⟨nnn, rfl, toNat_zextImm_add_zextByte nnn _⟩)))
  case returned => exact .inr (.inr (.inr (.inr (.inl ⟨rfl, rfl⟩))))
  case armed x | waited x => exact .inr (.inr (.inr (.inr (.inr ⟨x, rfl, rfl⟩))))
  case drawn | digits | dumped | filled => exact .inl (by simp [State.advanceI])
  all_goals exact .inl rfl

/-! ### The flag register -/

theorem flagByte_cases (b : Bool) : flagByte b = 0x00#8 ∨ flagByte b = 0x01#8 := by
  cases b
  · exact .inl rfl
  · exact .inr rfl

theorem reg_resultThenFlag_vf (s : State) (x : RegIdx) (r flag : Byte) :
    (s.resultThenFlag x r flag).reg vf = flag :=
  State.reg_writeReg_same _ vf flag

theorem reg_flagThenResult_vf {x : RegIdx} (hx : x ≠ vf) (s : State) (r flag : Byte) :
    (s.flagThenResult x r flag).reg vf = flag := by
  unfold State.flagThenResult
  rw [State.reg_writeReg_other _ _ hx.symm, State.reg_writeReg_same]

/-- An instruction that writes VF as a flag leaves 0 or 1 in it, unless VF is its destination. -/
theorem Effect.flag_of_writesFlag (h : Effect s i t) (hw : i.writesFlag = true)
    (hx : i.destination ≠ some vf) :
    t.reg vf = 0x00#8 ∨ t.reg vf = 0x01#8 ∨ t = { s with fault := t.fault } := by
  cases h
  case raised => exact .inr (.inr rfl)
  case flaggedLast x r flag dest _ =>
    rw [reg_resultThenFlag_vf]
    exact (flagByte_cases flag).imp_right .inl
  case flaggedFirst x r flag dest _ =>
    have hne : x ≠ vf := fun e => hx (e ▸ dest)
    rw [reg_flagThenResult_vf hne]
    exact (flagByte_cases flag).imp_right .inl
  case drawn x y n => exact (drawSprite_flag s x y n).imp_right .inl
  case skipped _ skips | askedKey _ skips =>
    exact absurd ((Instr.not_writesFlag_of_skips skips).symm.trans hw) Bool.false_ne_true
  case loaded _ _ _ noFlag => exact absurd (noFlag.symm.trans hw) Bool.false_ne_true
  case indexed _ index =>
    obtain ⟨nnn, rfl⟩ | ⟨x, rfl | rfl⟩ := index <;> exact absurd hw Bool.false_ne_true
  all_goals exact absurd hw Bool.false_ne_true

/-- No other instruction writes VF, unless VF is its destination or in its load range. -/
theorem Effect.flag_of_not_writesFlag (h : Effect s i t) (hw : i.writesFlag = false)
    (hx : i.destination ≠ some vf) (hload : i ≠ .ldVxMem vf) : t.reg vf = s.reg vf := by
  cases h
  case loaded x b dest _ => exact State.reg_writeReg_other s b fun e => hx (e ▸ dest)
  case randomized x nn b => exact State.reg_writeReg_other _ b fun e => hx (congrArg some e.symm)
  case delivered x k => exact State.reg_writeReg_other s _ fun e => hx (congrArg some e.symm)
  case filled x =>
    have hne : x.toNat ≠ vf.toNat := fun e => hload (congrArg _ (BitVec.eq_of_toNat_eq e))
    have habove : x.toNat + 1 ≤ vf.toNat := by
      have hvf : vf.toNat = 15 := rfl
      omega
    exact State.reg_writeRegsFrom_outside s 0 _ (by simp; omega) (.inr (by simpa using habove))
  case flaggedLast flags | flaggedFirst flags =>
    exact absurd (hw.symm.trans flags) Bool.false_ne_true
  case drawn => exact absurd hw.symm Bool.false_ne_true
  case digits | dumped => exact State.reg_congr (by simp [State.advanceI]) vf
  all_goals rfl

/-- Settles O44. -/
theorem flagIsWrittenOnlyByTheListed : Obligations.FlagIsWrittenOnlyByTheListed :=
  fun _ _ _ h => ⟨(exec_effect h).flag_of_writesFlag, (exec_effect h).flag_of_not_writesFlag⟩

/-! ### Faults -/

/-- `Present()` latches `DisplayFlushFailure(ia)` or nothing. -/
theorem present_fault_some {f : Fault} (hs : s.fault = none) (h : s.present.fault = some f) :
    f = .displayFlushFailure s.ia := by
  rcases present_fault_cases s with e | e
  · cases hs.symm.trans (e.symm.trans h)
  · cases e.symm.trans h
    rfl

/-- Where a fault latched by an instruction comes from: it was taken before anything was written, or
the `Present()` of a clear or a draw was answered `fail`. -/
theorem Effect.fault_some {f : Fault} (h : Effect s i t) (hs : s.fault = none)
    (hf : t.fault = some f) :
    (MayRaise i s f ∧ t = s.raise f) ∨
      ((i = .cls ∨ ∃ x y n, i = .drw x y n) ∧ f = .displayFlushFailure s.ia) := by
  cases h
  case raised _ listed =>
    cases hf
    exact .inl ⟨listed, rfl⟩
  case cleared => exact .inr ⟨.inl rfl, present_fault_some (s := s.clearFb) hs hf⟩
  case drawn x y n =>
    have hia : (s.drawSprite x y n).ia = s.ia := by simp [State.ia]
    refine .inr ⟨.inr ⟨x, y, n, rfl⟩, ?_⟩
    rw [← hia]
    exact present_fault_some (by simpa using hs) hf
  case digits | dumped | filled => simp [State.advanceI, hs] at hf
  all_goals cases hs.symm.trans hf

/-- Settles O46. -/
theorem onlyTheListedFaults : Obligations.OnlyTheListedFaults := by
  intro i s t f hs h hf
  rcases (exec_effect h).fault_some hs hf with ⟨hlisted, -⟩ | ⟨hi, rfl⟩
  · exact hlisted
  · exact ⟨hi, rfl⟩

/-- Settles O47. -/
theorem faultsArePrecise : Obligations.FaultsArePrecise := by
  intro i s t f hs h hf hprecise
  rcases (exec_effect h).fault_some hs hf with ⟨-, rfl⟩ | ⟨-, rfl⟩
  · rfl
  · exact absurd rfl (hprecise _)

/-! ### Outputs -/

/-- `SYS` reports its own encoding: the zero-extended NNN. -/
theorem zextImm_eq_encode_sys (nnn : Imm12) : zextImm nnn = encode (.sys nnn) := by
  have hword : (0x0#4 ++ nnn).toNat = 0 <<< 12 ||| nnn.toNat := BitVec.toNat_append 0x0#4 nnn
  rw [Nat.zero_shiftLeft, Nat.zero_or] at hword
  exact BitVec.eq_of_toNat_eq ((toNat_zextImm nnn).trans hword.symm)

/-- A fault taken before anything is written is of no clear and no `SYS`, and of a draw only the
memory fault. -/
theorem MayRaise.of_precise {f : Fault} (h : MayRaise i s f)
    (precise : ∀ ia, f ≠ .displayFlushFailure ia) : i ≠ .cls ∧ (∀ nnn, i ≠ .sys nnn) ∧
      ∀ x y n, i = .drw x y n → f = .memoryOutOfRange (max s.I.toNat s.cfg.memSize) := by
  cases f with
  | memoryOutOfRange a =>
    obtain ⟨hi, rfl⟩ := h
    obtain ⟨x, y, n, rfl⟩ | ⟨x, rfl⟩ | ⟨x, rfl⟩ | ⟨x, rfl⟩ := hi <;>
      exact ⟨nofun, nofun, fun _ _ _ _ => rfl⟩
  | stackUnderflow ia =>
    obtain ⟨rfl, -⟩ := h
    exact ⟨nofun, nofun, nofun⟩
  | stackOverflow ia =>
    obtain ⟨⟨nnn, rfl⟩, -⟩ := h
    exact ⟨nofun, nofun, nofun⟩
  | displayFlushFailure ia => exact absurd rfl (precise ia)
  | keyIndexOutOfRange k =>
    obtain ⟨x, rfl | rfl, -⟩ := h <;> exact ⟨nofun, nofun, nofun⟩

/-- An instruction that puts nothing out. -/
theorem Effect.outputs_of_not_reports (h : Effect s i t) (hi : i.reports = false) :
    t.env.outputs = s.env.outputs := by
  cases h
  case drawn | reported | cleared => exact absurd hi.symm Bool.false_ne_true
  case digits | dumped | filled => simp [State.advanceI]
  all_goals rfl

theorem present_fault_ne_memoryOutOfRange (hs : s.fault = none) (a : Nat) :
    s.present.fault ≠ some (.memoryOutOfRange a) :=
  fun h => nomatch present_fault_some hs h

/-- Settles O49. -/
theorem outputsOfEachInstruction : Obligations.OutputsOfEachInstruction := by
  intro i s t hs h
  have heffect := exec_effect h
  cases hi : i.reports with
  | false =>
    refine .inr (.inr ⟨heffect.outputs_of_not_reports hi, ?_, ?_, ?_⟩)
    · rintro rfl
      cases hi
    · rintro nnn rfl
      cases hi
    · rintro x y n rfl
      cases hi
  | true =>
    cases heffect
    case reported nnn => exact .inl ⟨nnn, rfl, by rw [← zextImm_eq_encode_sys]; rfl⟩
    case cleared =>
      exact .inr (.inl ⟨.inl rfl, rfl, present_fault_ne_memoryOutOfRange (s := s.clearFb) hs⟩)
    case drawn x y n =>
      have hpresented : (s.drawSprite x y n).present.env.outputs =
          .presented (s.drawSprite x y n).fb :: s.env.outputs := by
        simp [State.afterPresent]
      exact .inr (.inl ⟨.inr ⟨x, y, n, rfl⟩, hpresented,
        present_fault_ne_memoryOutOfRange (by simpa using hs)⟩)
    case raised precise listed =>
      obtain ⟨hcls, hsys, hdrw⟩ := listed.of_precise precise
      exact .inr (.inr ⟨rfl, hcls, hsys, fun x y n e => congrArg some (hdrw x y n e)⟩)
    case skipped _ skips | askedKey _ skips =>
      exact absurd ((Instr.not_reports_of_skips skips).symm.trans hi) Bool.false_ne_true
    case loaded dest _ | flaggedFirst dest _ | flaggedLast dest _ =>
      exact absurd ((Instr.not_reports_of_destination dest).symm.trans hi) Bool.false_ne_true
    case indexed index =>
      obtain ⟨nnn, rfl⟩ | ⟨x, rfl | rfl⟩ := index <;> cases hi
    all_goals cases hi

end Sys2Proof.Machine

/-! ## The step and the stack instructions (`40_step_cycle.md` R90 to R96, `41_flow.md` R105, R107) -/

namespace Sys2Proof.Machine

/-- Settles O7. -/
theorem stepRunsTheDecodedInstruction : Obligations.StepRunsTheDecodedInstruction :=
  fun _ _ hs hfetch hd => step_of_decode_ok hs (fetch_of_fetchable hfetch) hd

/-- Settles O8: the address of the diagnostic is `ia`, which the advance has left behind. -/
theorem unknownWordIsPassedOver : Obligations.UnknownWordIsPassedOver := by
  intro s e hs hfetch hd
  rw [step_of_decode_error hs (fetch_of_fetchable hfetch) hd, execUnknown, State.diag, ia_advance]
  rfl

/-- Settles O9: the first byte outside `mem` is the one reported. -/
theorem fetchOutsideMemoryLatches : Obligations.FetchOutsideMemoryLatches :=
  fun _ hs => ⟨fun h => step_of_fetch_error hs (fetch_first_outside h),
    fun h h' => step_of_fetch_error hs (fetch_second_outside h h')⟩

theorem tick60_of_latched {s : State} {f : Fault} (h : s.fault = some f) : s.tick60 = s := by
  rw [State.tick60, h]

theorem keyRelease_of_latched {s : State} {f : Fault} (h : s.fault = some f) (k : Key) :
    s.keyRelease k = s := by
  rw [State.keyRelease, h]

/-- Settles O10. -/
theorem latchedCoreIsInert : Obligations.LatchedCoreIsInert := by
  intro s f k h
  have hresult : stepResult s = some (.fault f) := by
    simp only [stepResult, step_of_latched h, State.result, h]
  exact ⟨step_of_latched h, hresult, tick60_of_latched h, keyRelease_of_latched h k⟩

/-- Every arm of `exec` answers a next state. -/
theorem exec_next (i : Instr) (s : State) : ∃ t, exec i s = .next t := by
  cases i <;> exact ⟨_, rfl⟩

/-- Settles O11: a step ends, or runs an instruction, or passes over a word. -/
theorem nothingStopsTheMachine : Obligations.NothingStopsTheMachine := by
  refine ⟨exec_next, fun s => ?_⟩
  unfold step
  split
  · exact ⟨_, rfl⟩
  · exact exec_next _ _
  · exact ⟨_, rfl⟩

/-- Settles O12. -/
theorem sysOnlyReports : Obligations.SysOnlyReports := by
  intro nnn s
  have hword : zextImm nnn = 0x0#4 ++ nnn := zextImm_eq_encode_sys nnn
  rw [← hword]
  rfl

/-! ### Call and return -/

theorem exec_call_of_room {s : State} (nnn : Imm12) (h : s.sp < s.cfg.stackDepth) :
    exec (.call nnn) s = .next ((s.push s.pc).setPc (zextImm nnn)) :=
  congrArg _ (if_neg (Nat.not_le.2 h))

theorem exec_ret_of_used {s : State} (h : 0 < s.sp) :
    exec .ret s = .next (s.pop.setPc (s.stackAt (s.sp - 1))) :=
  congrArg _ (if_neg (Nat.ne_of_gt h))

theorem stackAt_push_same {s : State} (w : Word) (h : s.sp < s.stack.length) :
    (s.push w).stackAt s.sp = w := by
  simp [State.stackAt, h]

theorem stackAt_push_other {s : State} (w : Word) {j : Nat} (h : j ≠ s.sp) :
    (s.push w).stackAt j = s.stackAt j := by
  simp [State.stackAt, List.getElem?_set_ne h.symm]

/-- Settles O14. -/
theorem callPushesAndJumps : Obligations.CallPushesAndJumps := by
  intro nnn s hlen hroom
  exact ⟨_, exec_call_of_room nnn hroom, toNat_zextImm nnn, rfl,
    stackAt_push_same s.pc (hlen ▸ hroom), fun _ hj => stackAt_push_other s.pc hj,
    List.length_set, fun _ _ => rfl, rfl, fun _ => rfl, rfl, ⟨rfl, rfl⟩, rfl, rfl, rfl, rfl⟩

/-- Settles O15. -/
theorem returnPopsIntoPc : Obligations.ReturnPopsIntoPc := by
  intro s hused
  exact ⟨_, exec_ret_of_used hused, rfl, Nat.sub_add_cancel hused, rfl, fun _ _ => rfl, rfl,
    fun _ => rfl, rfl, ⟨rfl, rfl⟩, rfl, rfl, rfl, rfl⟩

/-- Settles O16: both tests of `sp` come before anything is written. -/
theorem stackFaultsChangeNothingElse : Obligations.StackFaultsChangeNothingElse :=
  fun _ => ⟨fun h => congrArg _ (if_pos h), fun _ h => congrArg _ (if_pos h.ge)⟩

theorem runEvents_cons_of_next {e : Event} {s u : State} (h : applyEvent e s = .next u)
    (es : List Event) : runEvents (e :: es) s = runEvents es u := by
  rw [runEvents, h]

theorem step_call {s : State} {nnn : Imm12} (hs : s.fault = none) (hfetch : s.Fetchable)
    (hword : s.peek s.pc.toNat ++ s.peek (s.pc.toNat + 1) = encode (.call nnn))
    (hroom : s.sp < s.cfg.stackDepth) :
    step s = .next ((s.advance.push s.advance.pc).setPc (zextImm nnn)) := by
  have hd : decode (s.peek s.pc.toNat ++ s.peek (s.pc.toNat + 1)) = .ok (.call nnn) := by
    rw [hword]
    exact decodeOfEncodeIsTheInstruction _ rfl
  rw [step_of_decode_ok hs (fetch_of_fetchable hfetch) hd]
  exact exec_call_of_room nnn hroom

theorem step_ret {s : State} {a : Nat} (hpc : s.pc.toNat = a) (hs : s.fault = none)
    (hinside : a + 1 < s.cfg.memSize) (hhigh : s.peek a = 0x00#8) (hlow : s.peek (a + 1) = 0xEE#8)
    (hused : 0 < s.sp) :
    step s = .next (s.advance.pop.setPc (s.advance.stackAt (s.sp - 1))) := by
  subst hpc
  have hd : decode (s.peek s.pc.toNat ++ s.peek (s.pc.toNat + 1)) = .ok .ret := by
    rw [hhigh, hlow]
    rfl
  rw [step_of_decode_ok hs (fetch_of_fetchable hinside) hd]
  exact exec_ret_of_used hused

/-- Settles O51: the call pushes the advanced `pc` and leaves memory alone, so the second step fetches
the return at NNN, which pops that `pc`. -/
theorem callThenReturnComesBack : Obligations.CallThenReturnComesBack := by
  intro nnn s hinv hs hroom hfetch hcall hnnn hhigh hlow
  obtain ⟨-, -, hlen, -, -⟩ := hinv
  have hfirst := step_call hs hfetch hcall hroom
  have hsecond := step_ret (s := (s.advance.push s.advance.pc).setPc (zextImm nnn))
    (toNat_zextImm nnn) hs hnnn hhigh hlow (Nat.succ_pos s.sp)
  refine ⟨_, (runEvents_cons_of_next (e := .step) hfirst _).trans
    (runEvents_cons_of_next (e := .step) hsecond []), ?popped, rfl, hs, fun _ _ => rfl,
    fun _ => rfl, rfl⟩
  case popped => exact stackAt_push_same s.advance.pc (hlen ▸ hroom)

end Sys2Proof.Machine

/-! ## Register skips, the random byte, `FX1E` and register-to-register arithmetic (`41_flow.md` R110,
R111, `42_immediate.md` R123, `46_timer_index_memory.md` R169, `43_alu.md` R130 to R139) -/

namespace Sys2Proof.Machine

/-- Settles O18: both are the skip primitive, and neither reads N. -/
theorem registerSkipsWhateverN : Obligations.RegisterSkipsWhateverN := by
  intro x y n s
  refine ⟨⟨s.skipIf (s.reg x == s.reg y), rfl, ?se, skipIf_frame s _⟩,
    s.skipIf (s.reg x != s.reg y), rfl, ?sne, skipIf_frame s _⟩
  case se => simp [toNat_skipIf_pc]
  case sne => simp [toNat_skipIf_pc]

/-- Settles O21: the question is asked before the one register is written. -/
theorem randomIsMaskedByNN : Obligations.RandomIsMaskedByNN := by
  intro x nn s
  have hreg := State.reg_writeReg_same s.afterRnd x (s.rndAnswer &&& nn)
  obtain ⟨hregs, hpc, hI, hmem, hdevices, -⟩ := writeReg_frame s.afterRnd x (s.rndAnswer &&& nn)
  refine ⟨_, rfl, hreg, fun j hj => ?masked, rfl, hregs, hpc, hI, hmem, hdevices, rfl⟩
  case masked => rw [hreg, BitVec.getLsbD_and, hj, Bool.and_false]

/-- Settles O35: one write of `I`, a 16-bit sum. -/
theorem addToIndexWrapsAt16Bits : Obligations.AddToIndexWrapsAt16Bits := by
  intro x s
  refine ⟨s.setI (s.I + zextByte (s.reg x)), rfl, ?sum, setI_frame s _⟩
  case sum => rw [State.setI_I, BitVec.toNat_add, toNat_zextByte]

/-! ### The flags as numbers -/

theorem toNat_flagByte (b : Bool) : (flagByte b).toNat = b.toNat := by
  cases b <;> rfl

theorem toNat_flagByte_decide (p : Prop) [Decidable p] :
    (flagByte (decide p)).toNat = if p then 1 else 0 := by
  by_cases h : p <;> simp [flagByte, h]

theorem toNat_carryFlag (a b : Byte) :
    (carryFlag a b).toNat = if 255 < a.toNat + b.toNat then 1 else 0 :=
  toNat_flagByte_decide _

theorem toNat_notBorrowFlag (a b : Byte) :
    (notBorrowFlag a b).toNat = if b.toNat ≤ a.toNat then 1 else 0 :=
  toNat_flagByte_decide _

theorem toNat_lowBitFlag (b : Byte) : (lowBitFlag b).toNat = b.toNat % 2 := by
  rw [lowBitFlag, toNat_flagByte, BitVec.getLsbD, Nat.toNat_testBit, pow_zero, Nat.div_one]

theorem toNat_highBitFlag (b : Byte) : (highBitFlag b).toNat = b.toNat / 128 := by
  have hlt := b.isLt
  rw [highBitFlag, toNat_flagByte, BitVec.getLsbD, Nat.toNat_testBit]
  omega

/-! ### The two write orders of R130 -/

/-- Two register writes touch nothing else. -/
theorem writeReg_writeReg_frame (s : State) (x y : RegIdx) (b c : Byte) :
    SameRegsBut [x, y] s ((s.writeReg x b).writeReg y c) ∧
      ((s.writeReg x b).writeReg y c).pc = s.pc ∧ ((s.writeReg x b).writeReg y c).I = s.I ∧
      SameOutsideRegisters s ((s.writeReg x b).writeReg y c) := by
  refine ⟨fun r hr => ?regs, (writeReg_frame (s.writeReg x b) y c).2⟩
  case regs =>
    rw [List.mem_pair, not_or] at hr
    rw [State.reg_writeReg_other _ _ hr.2, State.reg_writeReg_other _ _ hr.1]

theorem resultThenFlag_frame (s : State) (x : RegIdx) (r flag : Byte) :
    SameRegsBut [x, 0xF#4] s (s.resultThenFlag x r flag) ∧
      (s.resultThenFlag x r flag).pc = s.pc ∧ (s.resultThenFlag x r flag).I = s.I ∧
      SameOutsideRegisters s (s.resultThenFlag x r flag) :=
  writeReg_writeReg_frame s x vf r flag

theorem flagThenResult_frame (s : State) (x : RegIdx) (r flag : Byte) :
    SameRegsBut [x, 0xF#4] s (s.flagThenResult x r flag) ∧
      (s.flagThenResult x r flag).pc = s.pc ∧ (s.flagThenResult x r flag).I = s.I ∧
      SameOutsideRegisters s (s.flagThenResult x r flag) := by
  obtain ⟨hregs, hrest⟩ := writeReg_writeReg_frame s vf x flag r
  exact ⟨fun a ha => hregs a fun h => ha (List.mem_pair.2 (List.mem_pair.1 h).symm), hrest⟩

theorem reg_resultThenFlag {x : RegIdx} (hx : x ≠ vf) (s : State) (r flag : Byte) :
    (s.resultThenFlag x r flag).reg x = r := by
  rw [State.resultThenFlag, State.reg_writeReg_other _ _ hx, State.reg_writeReg_same]

theorem reg_flagThenResult (s : State) (x : RegIdx) (r flag : Byte) :
    (s.flagThenResult x r flag).reg x = r :=
  State.reg_writeReg_same _ x r

/-- Settles O22: all three write the result, then 0 as the flag. -/
theorem logicClearsVF : Obligations.LogicClearsVF := by
  intro x y s
  refine List.forall_mem_cons.2 ⟨⟨_, rfl, ?_⟩, List.forall_mem_cons.2 ⟨⟨_, rfl, ?_⟩,
    List.forall_mem_singleton.2 ⟨_, rfl, ?_⟩⟩⟩
  all_goals
    exact ⟨reg_resultThenFlag_vf s x _ _, fun hx => reg_resultThenFlag hx s _ _,
      resultThenFlag_frame s x _ _⟩

/-- Settles O23: the sum is written, then the carry. -/
theorem addSetsCarry : Obligations.AddSetsCarry := by
  intro x y s
  refine ⟨_, rfl, fun hx => ?sum, ?carry, resultThenFlag_frame s x _ _⟩
  case sum => rw [reg_resultThenFlag hx, BitVec.toNat_add]
  case carry => exact (congrArg _ (reg_resultThenFlag_vf s x _ _)).trans (toNat_carryFlag _ _)

theorem toNat_sub_byte (a b : Byte) : (a - b).toNat = (a.toNat + 256 - b.toNat) % 256 := by
  have hlt := b.isLt
  rw [BitVec.toNat_sub]
  omega

/-- Settles O24: not-borrow is written, then the difference; the two forms differ in the order of the
operands. -/
theorem subtractSetsNotBorrow : Obligations.SubtractSetsNotBorrow := by
  intro x y s
  refine List.forall_mem_cons.2 ⟨⟨_, rfl, ?_⟩, List.forall_mem_singleton.2 ⟨_, rfl, ?_⟩⟩
  all_goals
    exact ⟨(congrArg _ (reg_flagThenResult s x _ _)).trans (toNat_sub_byte _ _),
      fun hx => (congrArg _ (reg_flagThenResult_vf hx s _ _)).trans (toNat_notBorrowFlag _ _),
      flagThenResult_frame s x _ _⟩

/-- Settles O25: the bit shifted out is written, then the shifted Vy. -/
theorem shiftsTakeVy : Obligations.ShiftsTakeVy := by
  intro x y s
  refine ⟨⟨_, rfl, ?right, fun hx => ?low, flagThenResult_frame s x _ _⟩,
    _, rfl, ?left, fun hx => ?high, flagThenResult_frame s x _ _⟩
  case right => rw [reg_flagThenResult, BitVec.toNat_ushiftRight, Nat.shiftRight_one]
  case left =>
    rw [reg_flagThenResult, BitVec.toNat_shiftLeft, Nat.shiftLeft_eq, pow_one]
  case low => exact (congrArg _ (reg_flagThenResult_vf hx s _ _)).trans (toNat_lowBitFlag _)
  case high => exact (congrArg _ (reg_flagThenResult_vf hx s _ _)).trans (toNat_highBitFlag _)

end Sys2Proof.Machine

/-! ## Display (`44_display.md` R145 to R149) -/

namespace Sys2Proof.Machine

/-- What a `Present()` after writes that touch neither the environment, nor the latch, nor `pc` looks
like from before them. -/
theorem presentsOnce_present {s t : State} (henv : t.env = s.env) (hfault : t.fault = s.fault)
    (hpc : t.pc = s.pc) : PresentsOnce s t.present := by
  refine ⟨?env, ?fault⟩
  case env => rw [State.present_env, State.afterPresent, henv]; rfl
  case fault =>
    rw [State.present_fault, State.presentAnswer, State.ia, henv, hfault, hpc]
    rfl

/-- Settles O26. -/
theorem clearDarkensAndPresents : Obligations.ClearDarkensAndPresents :=
  fun s => ⟨s.clearFb.present, rfl, pixelAt_darkGrid s.cfg, gridShape_darkGrid s.cfg,
    presentsOnce_present (t := s.clearFb) rfl rfl rfl, fun _ _ => rfl, rfl, rfl, fun _ => rfl, rfl,
    ⟨rfl, rfl⟩, ⟨rfl, rfl⟩, rfl⟩

theorem exec_drw_of_drawFault {s : State} {y : RegIdx} {n : Nibble} {f : Fault} (x : RegIdx)
    (h : s.drawFault y n = some f) : exec (.drw x y n) s = .next (s.raise f) := by
  show execDrw x y n s = _
  rw [execDrw, h]

theorem exec_drw_of_inside {s : State} {y : RegIdx} {n : Nibble} (x : RegIdx)
    (h : visibleRows s y n = 0 ∨ s.I.toNat + visibleRows s y n ≤ s.cfg.memSize) :
    exec (.drw x y n) s = .next (s.drawSprite x y n).present := by
  show execDrw x y n s = _
  rw [execDrw, drawFault_none.2 h]

/-- Settles O28: the check comes before the first write. -/
theorem drawOutsideMemoryLatches : Obligations.DrawOutsideMemoryLatches := by
  intro x y n s hrows houtside
  cases hf : s.drawFault y n with
  | none =>
    rcases drawFault_none.1 hf with h | h
    · exact absurd h (Nat.ne_of_gt hrows)
    · exact absurd houtside (Nat.not_lt.2 h)
  | some f =>
    obtain ⟨rfl, -⟩ := drawFault_some hf
    exact exec_drw_of_drawFault x hf

/-- After VF is cleared, a draw leaves 1 there exactly when it covered a lit pixel. -/
theorem drawSprite_flag_iff {s : State} (hs : gridShape s.cfg s.fb) (x y : RegIdx) (n : Nibble) :
    (s.drawSprite x y n).reg vf = 0x01#8 ↔ ∃ r c, r < s.cfg.height ∧ c < s.cfg.width ∧
      s.pixel r c = true ∧ SpriteCovers s x y n r c := by
  rw [(painted_drawSprite hs x y n).flag_iff, State.reg_writeReg_same]
  exact or_iff_right (by decide)

theorem peek_drawSprite (s : State) (x y : RegIdx) (n : Nibble) :
    SameMemory s (s.drawSprite x y n) :=
  State.peek_congr (drawSprite_cfg s x y n) (drawSprite_mem s x y n)

/-- Settles O27: the fold of toggles paints the pixels the sprite covers. -/
theorem drawTogglesTheSpritesPixels : Obligations.DrawTogglesTheSpritesPixels := by
  intro x y n s hinv hinside
  obtain ⟨-, -, -, -, hshape⟩ := hinv
  have hpainted := painted_drawSprite hshape x y n
  have hpresents : PresentsOnce s (s.drawSprite x y n).present :=
    presentsOnce_present (by simp) (by simp) (by simp)
  exact ⟨_, exec_drw_of_inside x hinside, hpainted.pixels, (drawSprite_flag s x y n).symm,
    drawSprite_flag_iff hshape x y n, by simpa using hpainted.shape, hpresents,
    drawSprite_regs s x y n, by simp, by simp, peek_drawSprite s x y n, by simp, ⟨by simp, by simp⟩,
    ⟨by simp, by simp⟩, by simp⟩

/-- What a draw reads besides the pixels is the same in two states that agree on the configuration,
`I`, memory and the two coordinates. -/
theorem spriteCovers_congr {s t : State} {x y : RegIdx} (hcfg : t.cfg = s.cfg) (hI : t.I = s.I)
    (hmem : SameMemory s t) (hx : t.reg x = s.reg x) (hy : t.reg y = s.reg y) (n : Nibble) :
    SpriteCovers t x y n = SpriteCovers s x y n := by
  funext r c
  simp only [SpriteCovers, hcfg, hI, hmem _, hx, hy]

/-- Toggling the same pixels twice restores the grid. -/
theorem fb_eq_of_painted_twice {P : Nat → Nat → Prop} {s s' t t' : State}
    (h : Painted P s s') (h' : Painted P t t') (hs : gridShape s.cfg s.fb) (hcfg : t.cfg = s.cfg)
    (hfb : t.fb = s'.fb) : t'.fb = s.fb := by
  have hshape : gridShape s.cfg t'.fb := hcfg ▸ h'.shape
  refine grid_ext hshape hs fun r c hr hc => ?_
  have hfirst := h.pixels r c hr hc
  have hsecond := h'.pixels r c (hcfg ▸ hr) (hcfg ▸ hc)
  rw [show t.pixel r c = s'.pixel r c by rw [State.pixel, hfb]; rfl] at hsecond
  show t'.pixel r c = s.pixel r c
  by_cases hP : P r c
  · have h1 := hfirst.2 hP
    have h2 := hsecond.2 hP
    revert h1 h2
    cases t'.pixel r c <;> cases s'.pixel r c <;> cases s.pixel r c <;> simp
  · exact (not_not.1 (mt hsecond.1 hP)).trans (not_not.1 (mt hfirst.1 hP))

/-- Settles O29: between the two draws only VF, the grid, the latch and the environment change, so
the second one toggles the same pixels. -/
theorem drawTwiceRestoresTheGrid : Obligations.DrawTwiceRestoresTheGrid := by
  intro x y n s t u hinv hx hy hinside ht hu
  obtain ⟨-, -, -, -, hshape⟩ := hinv
  have hpainted := painted_drawSprite hshape x y n
  rw [exec_drw_of_inside x hinside] at ht
  cases ht
  have hregs := drawSprite_regs s x y n
  have hregx : (s.drawSprite x y n).present.reg x = s.reg x := hregs x (mt List.mem_singleton.1 hx)
  have hregy : (s.drawSprite x y n).present.reg y = s.reg y := hregs y (mt List.mem_singleton.1 hy)
  have hrows : visibleRows (s.drawSprite x y n).present y n = visibleRows s y n := by
    simp [visibleRows, hregy]
  have hcovers := spriteCovers_congr (t := (s.drawSprite x y n).present) (by simp) (by simp)
    (peek_drawSprite s x y n) hregx hregy n
  rw [exec_drw_of_inside x (by simpa [hrows] using hinside)] at hu
  cases hu
  have hagain := painted_drawSprite (s := (s.drawSprite x y n).present)
    (by simpa using hpainted.shape) x y n
  rw [hcovers] at hagain
  have hcfg : (s.drawSprite x y n).present.cfg = s.cfg := drawSprite_cfg s x y n
  have hfb := fb_eq_of_painted_twice hpainted hagain hshape hcfg rfl
  exact hfb

end Sys2Proof.Machine

/-! ## Keypad (`45_keypad.md` R155 to R159) -/

namespace Sys2Proof.Machine

variable {s : State} {x : RegIdx}

theorem skipOnKey_of_le (want : Bool) (h : (s.reg x).toNat ≤ 15) :
    s.skipOnKey x want = s.afterKey.skipIf (s.keyAnswer (keyOf (s.reg x)) == want) :=
  if_neg (Nat.not_lt.2 h)

theorem skipOnKey_of_gt (want : Bool) (h : 15 < (s.reg x).toNat) :
    s.skipOnKey x want = s.raise (.keyIndexOutOfRange (s.reg x)) :=
  if_pos h

theorem exec_skp_of_le (h : (s.reg x).toNat ≤ 15) :
    exec (.skp x) s = .next (s.afterKey.skipIf (s.keyAnswer (keyOf (s.reg x)))) := by
  show Host.Outcome.next (s.skipOnKey x true) = _
  rw [skipOnKey_of_le true h, beq_true]

theorem exec_sknp_of_le (h : (s.reg x).toNat ≤ 15) :
    exec (.sknp x) s = .next (s.afterKey.skipIf (!s.keyAnswer (keyOf (s.reg x)))) := by
  show Host.Outcome.next (s.skipOnKey x false) = _
  rw [skipOnKey_of_le false h, beq_false]

/-- A skip after one query writes `pc` and takes one answer, nothing else. -/
theorem afterKey_skipIf_frame (s : State) (taken : Bool) :
    (s.afterKey.skipIf taken).env =
        { s.env with keyAnswers := s.env.keyAnswers.tail, asked := s.env.asked + 1 } ∧
      SameRegsBut [] s (s.afterKey.skipIf taken) ∧ (s.afterKey.skipIf taken).I = s.I ∧
      SameMemory s (s.afterKey.skipIf taken) ∧ SameDevices s (s.afterKey.skipIf taken) ∧
      (s.afterKey.skipIf taken).fault = s.fault := by
  obtain ⟨hregs, hI, hmem, hdevices, -⟩ := skipIf_frame s.afterKey taken
  exact ⟨rfl, hregs, hI, hmem, hdevices, rfl⟩

/-- Settles O30: one query, then the skip primitive on its answer or on the answer's negation. -/
theorem keySkipsFollowTheAnswer : Obligations.KeySkipsFollowTheAnswer := by
  intro x s hle
  refine ⟨s.keyAnswer (keyOf (s.reg x)), rfl,
    List.forall_mem_cons.2 ⟨?skp, List.forall_mem_singleton.2 ?sknp⟩⟩
  case skp =>
    exact ⟨_, exec_skp_of_le hle, toNat_skipIf_pc s.afterKey _, afterKey_skipIf_frame s _⟩
  case sknp =>
    exact ⟨_, exec_sknp_of_le hle, toNat_skipIf_pc s.afterKey _, afterKey_skipIf_frame s _⟩

/-- Settles O31: the register is tested before the query. -/
theorem keyNumberAboveFifteenLatches : Obligations.KeyNumberAboveFifteenLatches := by
  intro x s habove
  have hraises (want : Bool) := congrArg (Host.Outcome.next (φ := Fault) (ρ := Refusal))
    (skipOnKey_of_gt want habove)
  exact List.forall_mem_cons.2 ⟨hraises true, List.forall_mem_singleton.2 (hraises false)⟩

theorem toNat_zextKey (k : Key) : (zextKey k).toNat = k.toNat :=
  BitVec.toNat_setWidth_of_le (by decide)

theorem exec_ldVxK_of_notWaiting (x : RegIdx) (h : s.waitKey = .notWaiting) :
    exec (.ldVxK x) s = .next ((s.setWaitKey .armed).setPc (s.pc - 2#16)) := by
  show execLdVxK x s = _
  rw [execLdVxK, h]

theorem exec_ldVxK_of_armed (x : RegIdx) (h : s.waitKey = .armed) :
    exec (.ldVxK x) s = .next (s.setPc (s.pc - 2#16)) := by
  show execLdVxK x s = _
  rw [execLdVxK, h]

theorem exec_ldVxK_of_captured (x : RegIdx) {k : Key} (h : s.waitKey = .captured k) :
    exec (.ldVxK x) s = .next ((s.writeReg x (zextKey k)).setWaitKey .notWaiting) := by
  show execLdVxK x s = _
  rw [execLdVxK, h]

/-- Settles O32, one case per value of `wait_key`. -/
theorem keyReadArmsWaitsAndDelivers : Obligations.KeyReadArmsWaitsAndDelivers := by
  intro x s
  cases hw : s.waitKey with
  | notWaiting =>
    exact ⟨_, exec_ldVxK_of_notWaiting x hw, fun _ => ⟨rfl, rfl, fun _ _ => rfl⟩, nofun, nofun,
      rfl, fun _ => rfl, rfl, ⟨rfl, rfl⟩, ⟨rfl, rfl⟩, rfl, rfl, rfl⟩
  | armed =>
    exact ⟨_, exec_ldVxK_of_armed x hw, nofun, fun _ => ⟨hw, rfl, fun _ _ => rfl⟩, nofun,
      rfl, fun _ => rfl, rfl, ⟨rfl, rfl⟩, ⟨rfl, rfl⟩, rfl, rfl, rfl⟩
  | captured k =>
    refine ⟨_, exec_ldVxK_of_captured x hw, nofun, nofun, fun k' hk => ?delivered,
      rfl, fun _ => rfl, rfl, ⟨rfl, rfl⟩, ⟨rfl, rfl⟩, rfl, rfl, rfl⟩
    case delivered =>
      cases hk
      exact ⟨rfl, rfl, (congrArg _ (State.reg_writeReg_same s x _)).trans (toNat_zextKey k),
        (writeReg_frame s x _).1⟩

/-! ### The wait as a run of events -/

/-- `pc` is back at the instruction after the advance and the retreat of R158. -/
@[simp] theorem advance_pc_sub_two (s : State) : s.advance.pc - 2#16 = s.pc :=
  ia_advance

/-- A state at an FX0A: no fault is latched and the next step runs it. -/
def AtKeyRead (x : RegIdx) (s : State) : Prop :=
  s.fault = none ∧ s.Fetchable ∧
    decode (s.peek s.pc.toNat ++ s.peek (s.pc.toNat + 1)) = .ok (.ldVxK x)

/-- The key-wait state is not read by fetch or decode. -/
theorem AtKeyRead.setWaitKey (h : AtKeyRead x s) (w : WaitKey) : AtKeyRead x (s.setWaitKey w) := h

theorem AtKeyRead.step_eq (h : AtKeyRead x s) : step s = exec (.ldVxK x) s.advance := by
  obtain ⟨hs, hfetch, hd⟩ := h
  exact step_of_decode_ok hs (fetch_of_fetchable hfetch) hd

theorem AtKeyRead.step_of_notWaiting (h : AtKeyRead x s) (hw : s.waitKey = .notWaiting) :
    step s = .next (s.setWaitKey .armed) := by
  rw [h.step_eq, exec_ldVxK_of_notWaiting (s := s.advance) x hw, advance_pc_sub_two]
  rfl

theorem AtKeyRead.step_of_armed (h : AtKeyRead x s) (hw : s.waitKey = .armed) :
    step s = .next s := by
  rw [h.step_eq, exec_ldVxK_of_armed (s := s.advance) x hw, advance_pc_sub_two]
  rfl

theorem AtKeyRead.step_of_captured {k : Key} (h : AtKeyRead x s) (hw : s.waitKey = .captured k) :
    step s = .next ((s.advance.writeReg x (zextKey k)).setWaitKey .notWaiting) := by
  rw [h.step_eq, exec_ldVxK_of_captured (s := s.advance) x hw]

/-- Steps of an armed FX0A change nothing, however many there are. -/
theorem AtKeyRead.runEvents_armed (h : AtKeyRead x s) (hw : s.waitKey = .armed) (n : Nat)
    (es : List Event) : runEvents (List.replicate n .step ++ es) s = runEvents es s := by
  induction n with
  | zero => rfl
  | succ n ih =>
    rw [List.replicate_succ, List.cons_append,
      runEvents_cons_of_next (e := .step) (h.step_of_armed hw), ih]

/-- The first of the steps arms the wait and the others keep it. -/
theorem AtKeyRead.runEvents_steps (h : AtKeyRead x s) (hw : s.waitKey = .notWaiting) (n : Nat)
    (es : List Event) :
    runEvents (List.replicate (n + 1) .step ++ es) s = runEvents es (s.setWaitKey .armed) := by
  rw [List.replicate_succ, List.cons_append,
    runEvents_cons_of_next (e := .step) (h.step_of_notWaiting hw),
    (h.setWaitKey .armed).runEvents_armed rfl]

theorem keyRelease_of_armed {s : State} (hs : s.fault = none) (hw : s.waitKey = .armed) (k : Key) :
    s.keyRelease k = s.setWaitKey (.captured k) := by
  rw [State.keyRelease, hs, hw]

/-- Settles O33: the wait is armed through all the steps, the release is captured, and the step after
it delivers the key. -/
theorem keyWaitEndsWithTheReleasedKey : Obligations.KeyWaitEndsWithTheReleasedKey := by
  intro x k n s hs hw hfetch hd
  have hat : AtKeyRead x s := ⟨hs, hfetch, hd⟩
  refine ⟨⟨s.setWaitKey .armed, ?waits, rfl, rfl, rfl⟩,
    (s.advance.writeReg x (zextKey k)).setWaitKey .notWaiting, ?delivers, rfl,
    (congrArg _ (State.reg_writeReg_same s.advance x _)).trans (toNat_zextKey k),
    (writeReg_frame s.advance x _).1, rfl, hs⟩
  case waits =>
    have hsteps := hat.runEvents_steps hw n []
    rw [List.append_nil] at hsteps
    exact hsteps
  case delivers =>
    have hrelease : applyEvent (.keyRelease k) (s.setWaitKey .armed) =
        .next (s.setWaitKey (.captured k)) :=
      congrArg _ (keyRelease_of_armed (s := s.setWaitKey .armed) hs rfl k)
    have hstep := (hat.setWaitKey (.captured k)).step_of_captured rfl
    rw [hat.runEvents_steps hw, runEvents_cons_of_next hrelease,
      runEvents_cons_of_next (e := .step) hstep]
    rfl

end Sys2Proof.Machine

/-! ## Memory transfer (`46_timer_index_memory.md` R171 to R173, `20_memory.md` R61) -/

namespace Sys2Proof.Machine

variable {s : State} {x : RegIdx}

/-! ### The three instructions inside and outside `mem` -/

theorem exec_ldBVx_of_fault {f : Fault} (hf : s.spanFault (s.ea 2) = some f) :
    exec (.ldBVx x) s = .next (s.raise f) := by
  show execLdBVx x s = _
  rw [execLdBVx, hf]

theorem exec_ldBVx_of_inside (h : s.I.toNat + 2 < s.cfg.memSize) :
    exec (.ldBVx x) s =
      .next (State.pokeMany s.I.toNat (bcdDigits (s.reg x)) s) := by
  have hf : s.spanFault (s.ea 2) = none := State.spanFault_eq_none.2 h
  show execLdBVx x s = _
  rw [execLdBVx, hf]
  rfl

theorem exec_ldMemVx_of_fault {f : Fault} (hf : s.spanFault (s.ea x.toNat) = some f) :
    exec (.ldMemVx x) s = .next (s.raise f) := by
  show execLdMemVx x s = _
  rw [execLdMemVx, hf]

theorem exec_ldMemVx_of_inside (h : s.I.toNat + x.toNat < s.cfg.memSize) :
    exec (.ldMemVx x) s =
      .next ((State.pokeMany s.I.toNat (s.regsBelow (x.toNat + 1)) s).advanceI x) := by
  have hf : s.spanFault (s.ea x.toNat) = none := State.spanFault_eq_none.2 h
  show execLdMemVx x s = _
  rw [execLdMemVx, hf]
  rfl

theorem exec_ldVxMem_of_fault {f : Fault} (hf : s.spanFault (s.ea x.toNat) = some f) :
    exec (.ldVxMem x) s = .next (s.raise f) := by
  show execLdVxMem x s = _
  rw [execLdVxMem, hf]

theorem exec_ldVxMem_of_inside (h : s.I.toNat + x.toNat < s.cfg.memSize) :
    exec (.ldVxMem x) s =
      .next ((State.writeRegsFrom 0 (s.peekMany s.I.toNat (x.toNat + 1)) s).advanceI x) := by
  have hf : s.spanFault (s.ea x.toNat) = none := State.spanFault_eq_none.2 h
  show execLdVxMem x s = _
  rw [execLdVxMem, hf]
  rfl

/-- Settles O40: all three make one check, over the last address they use. -/
theorem transferOutsideMemoryLatches : Obligations.TransferOutsideMemoryLatches :=
  fun _ s => List.forall_mem_cons.2 ⟨fun h => exec_ldBVx_of_fault (State.spanFault_of_ge s h),
    List.forall_mem_cons.2 ⟨fun h => exec_ldMemVx_of_fault (State.spanFault_of_ge s h),
      List.forall_mem_singleton.2 fun h => exec_ldVxMem_of_fault (State.spanFault_of_ge s h)⟩⟩

/-! ### What is stored and loaded, and the frames -/

/-- Storing bytes writes memory in their range and nothing else. -/
theorem pokeMany_frame (s : State) (a : Nat) (bs : List Byte) :
    SameMemoryOutside a bs.length s (State.pokeMany a bs s) ∧
      SameRegsBut [] s (State.pokeMany a bs s) ∧ (State.pokeMany a bs s).pc = s.pc ∧
      (State.pokeMany a bs s).I = s.I ∧ SameDevices s (State.pokeMany a bs s) ∧
      Quiet s (State.pokeMany a bs s) := by
  refine ⟨fun b hb => State.peek_pokeMany_outside s a bs hb, ?_⟩
  rw [State.pokeMany_eq]
  exact ⟨fun _ _ => rfl, rfl, rfl, ⟨rfl, ⟨rfl, rfl⟩, ⟨rfl, rfl⟩, rfl, rfl⟩, rfl, rfl⟩

@[simp] theorem length_bcdDigits (b : Byte) : (bcdDigits b).length = 3 := rfl

/-- The three digits of a byte put together again, and their bounds (R171). -/
theorem bcdDigits_spec (b : Byte) :
    (bcdDigits b)[0].toNat * 100 + (bcdDigits b)[1].toNat * 10 + (bcdDigits b)[2].toNat = b.toNat ∧
      (bcdDigits b)[0].toNat ≤ 2 ∧ (bcdDigits b)[1].toNat ≤ 9 ∧ (bcdDigits b)[2].toNat ≤ 9 := by
  have hlt := b.isLt
  simp only [bcdDigits, List.getElem_cons_zero, List.getElem_cons_succ, BitVec.toNat_ofNat]
  omega

/-- Settles O37. -/
theorem decimalDigitsAreStored : Obligations.DecimalDigitsAreStored := by
  intro x s hinside
  have hstored (i : Nat) (hi : i < 3) :=
    State.peek_pokeMany_inside s s.I.toNat (bcdDigits (s.reg x)) hi
  have h0 := hstored 0 (by decide)
  have h1 := hstored 1 (by decide)
  have h2 := hstored 2 (by decide)
  rw [Nat.add_zero] at h0
  obtain ⟨hsum, hhundreds, htens, hones⟩ := bcdDigits_spec (s.reg x)
  refine ⟨_, exec_ldBVx_of_inside hinside, ?_, ?_, ?_, ?_,
    pokeMany_frame s s.I.toNat (bcdDigits (s.reg x))⟩
  · rw [h0, h1, h2]
    exact hsum
  · rw [h0]
    exact hhundreds
  · rw [h1]
    exact htens
  · rw [h2]
    exact hones

theorem toNat_advanceI (s : State) (x : RegIdx) :
    (s.advanceI x).I.toNat = (s.I.toNat + x.toNat + 1) % 65536 := by
  rw [State.advanceI, State.setI_I, BitVec.toNat_add, BitVec.toNat_ofNat, Nat.add_mod_mod,
    ← Nat.add_assoc]

/-- FX55 stores `V[r]` at `I + r`. -/
theorem peek_pokeMany_regsBelow (s : State) {x r : RegIdx} (h : r.toNat ≤ x.toNat) :
    (State.pokeMany s.I.toNat (s.regsBelow (x.toNat + 1)) s).peek (s.I.toNat + r.toNat) =
      s.reg r := by
  have hlt : r.toNat < (s.regsBelow (x.toNat + 1)).length := by
    rw [State.length_regsBelow]
    exact Nat.lt_succ_of_le h
  rw [State.peek_pokeMany_inside s _ _ hlt, State.getElem_regsBelow, BitVec.ofNat_toNat,
    BitVec.setWidth_eq]

/-- Settles O38. -/
theorem dumpStoresV0ToVx : Obligations.DumpStoresV0ToVx := by
  intro x s hinside
  obtain ⟨hmem, hregs, hpc, hI, hdevices, hquiet⟩ :=
    pokeMany_frame s s.I.toNat (s.regsBelow (x.toNat + 1))
  rw [State.length_regsBelow] at hmem
  refine ⟨_, exec_ldMemVx_of_inside hinside, fun r => peek_pokeMany_regsBelow s, ?advanced, hmem,
    hregs, hpc, hdevices, hquiet⟩
  case advanced => rw [toNat_advanceI, hI]

/-- FX65 loads the byte at `I + r` into `V[r]`, up to VX. -/
theorem reg_writeRegsFrom_peekMany (s : State) (x r : RegIdx) :
    (State.writeRegsFrom 0 (s.peekMany s.I.toNat (x.toNat + 1)) s).reg r =
      if r.toNat ≤ x.toNat then s.peek (s.I.toNat + r.toNat) else s.reg r := by
  have hlen : 0 + (s.peekMany s.I.toNat (x.toNat + 1)).length ≤ 16 := by
    rw [State.length_peekMany, Nat.zero_add]
    exact x.isLt
  split
  · next h =>
    have hlt : r.toNat < (s.peekMany s.I.toNat (x.toNat + 1)).length := by
      rw [State.length_peekMany]
      exact Nat.lt_succ_of_le h
    rw [State.reg_writeRegsFrom_inside s 0 _ hlen hlt (Nat.zero_add _).symm,
      State.getElem_peekMany]
  · next h =>
    refine State.reg_writeRegsFrom_outside s 0 _ hlen (.inr ?_)
    rw [State.length_peekMany, Nat.zero_add]
    exact Nat.lt_of_not_le h

/-- Writing registers in a row writes nothing but registers. -/
theorem writeRegsFrom_frame (s : State) (i : Nat) (bs : List Byte) :
    (State.writeRegsFrom i bs s).pc = s.pc ∧ (State.writeRegsFrom i bs s).I = s.I ∧
      SameOutsideRegisters s (State.writeRegsFrom i bs s) := by
  rw [State.writeRegsFrom_eq]
  exact ⟨rfl, rfl, fun _ => rfl, ⟨rfl, ⟨rfl, rfl⟩, ⟨rfl, rfl⟩, rfl, rfl⟩, rfl, rfl⟩

/-- Settles O39. -/
theorem loadFillsV0ToVx : Obligations.LoadFillsV0ToVx := by
  intro x s hinside
  obtain ⟨hpc, hI, houtside⟩ := writeRegsFrom_frame s 0 (s.peekMany s.I.toNat (x.toNat + 1))
  refine ⟨_, exec_ldVxMem_of_inside hinside, reg_writeRegsFrom_peekMany s x, ?advanced, hpc,
    houtside⟩
  case advanced => rw [toNat_advanceI, hI]

/-- Settles O41: the two bytes at `pc` are the two registers stored there. -/
theorem storedInstructionIsFetched : Obligations.StoredInstructionIsFetched := by
  intro x a b s t hinside h hpc hb hbx
  rw [exec_ldMemVx_of_inside hinside] at h
  cases h
  have hapc : s.pc.toNat + 1 = s.I.toNat + b.toNat := by omega
  have hax : a.toNat ≤ x.toNat := by omega
  have hfetch : ((State.pokeMany s.I.toNat (s.regsBelow (x.toNat + 1)) s).advanceI x).Fetchable := by
    simp only [State.Fetchable, State.advanceI, State.setI_pc, State.setI_cfg, State.pokeMany_pc,
      State.pokeMany_cfg]
    omega
  have hhigh := peek_pokeMany_regsBelow s hax
  have hlow := peek_pokeMany_regsBelow s hbx
  rw [← hpc] at hhigh
  rw [← hapc] at hlow
  rw [fetch_of_fetchable hfetch, show State.pc (State.advanceI _ x) = s.pc from
    State.pokeMany_pc s _ _]
  exact congrArg₂ (fun hi lo : Byte => Except.ok (hi ++ lo)) hhigh hlow

end Sys2Proof.Machine

/-! ## Events and reset (`60_exceptions.md` R192, R193, `70_reset_and_hazards.md` R210 to R214) -/

namespace Sys2Proof.Machine

theorem toNat_countDown (b : Byte) : (countDown b).toNat = b.toNat - 1 := by
  unfold countDown
  split
  · next h => rw [h]; rfl
  · next h =>
    have hpos : 1 ≤ b.toNat := Nat.one_le_iff_ne_zero.2 fun h0 => h (BitVec.eq_of_toNat_eq h0)
    exact BitVec.toNat_sub_of_le hpos

theorem tick60_of_clear {s : State} (h : s.fault = none) :
    s.tick60 = { s with DT := countDown s.DT, ST := countDown s.ST } := by
  rw [State.tick60, h]

/-- Settles O52. -/
theorem tickSaturatesBothTimers : Obligations.TickSaturatesBothTimers :=
  fun s hs => ⟨_, congrArg Host.Outcome.next (tick60_of_clear hs), toNat_countDown s.DT,
    toNat_countDown s.ST, rfl⟩

/-- Settles O53, one case per value of `wait_key`. -/
theorem releaseIsCapturedOnlyWhenArmed : Obligations.ReleaseIsCapturedOnlyWhenArmed := by
  intro k s hs
  refine ⟨fun hw => congrArg _ (keyRelease_of_armed hs hw k), fun hw => ?ignored⟩
  case ignored =>
    show Host.Outcome.next (s.keyRelease k) = _
    rw [State.keyRelease, hs]
    cases hk : s.waitKey with
    | armed => exact absurd hk hw
    | notWaiting | captured => rfl

/-- Outside the ROM, memory after a reset reads as the background image. -/
theorem peek_boot_outside (s : State) (rom : List Byte) {a : Nat}
    (h : a < romBase ∨ romBase + rom.length ≤ a) :
    (s.boot rom).peek a = background s.cfg.font a :=
  State.peek_pokeMany_outside _ romBase rom h

/-- Settles O54. -/
theorem resetBuildsTheMemoryImage : Obligations.ResetBuildsTheMemoryImage := by
  intro rom s _ hfits
  refine ⟨s.boot rom, State.resetEvent_of_fits hfits, fun a _ => ⟨fun i hi ha => ?rom,
    fun i hi ha => ?font, fun ha => ?zero⟩⟩
  case rom => rw [ha]; exact State.peek_boot_rom s rom hi
  case font =>
    have hbelow : a < romBase := by
      unfold romBase
      omega
    rw [peek_boot_outside s rom (.inl hbelow), ha, background_font _ hi]
  case zero =>
    have houtside : a < romBase ∨ romBase + rom.length ≤ a := by
      unfold romBase
      omega
    rw [peek_boot_outside s rom houtside, background_elsewhere]
    omega

theorem reg_resetFor (cfg : Config) (x : RegIdx) : (State.resetFor cfg).reg x = 0x00#8 := by
  rw [State.reg_eq]
  exact Vector.getElem_replicate x.isLt

theorem stackAt_resetFor (cfg : Config) (j : Nat) : (State.resetFor cfg).stackAt j = 0x0000#16 := by
  simp only [State.stackAt, State.resetFor, List.getD_eq_getElem?_getD, List.getElem?_replicate]
  split <;> rfl

/-- Settles O55: loading the ROM writes memory only. -/
theorem resetLeavesTheListedValues : Obligations.ResetLeavesTheListedValues := by
  intro rom s t h
  obtain ⟨-, rfl⟩ := resetEvent_cases h
  rw [State.boot, State.pokeMany_eq]
  exact ⟨rfl, rfl, rfl, stackAt_resetFor s.cfg, reg_resetFor s.cfg, rfl, rfl, rfl,
    pixelAt_darkGrid s.cfg, rfl, rfl⟩

end Sys2Proof.Machine

/-! ## The canonical form of memory (`20_memory.md` R50) -/

namespace Sys2Proof.Machine.Memory

variable {cfg : Config} {m n : List Host.Cell}

/-- In a memory in canonical form, a listed cell is found by its address. -/
theorem lookup_of_mem (hm : m.Pairwise fun c d => c.1 < d.1) {a : Nat} {v : Byte}
    (h : (a, v) ∈ m) : lookup m a = some v := by
  induction m with
  | nil => cases h
  | cons c rest ih =>
    obtain ⟨k, w⟩ := c
    obtain ⟨hlt, hrest⟩ := List.pairwise_cons.1 hm
    rcases List.mem_cons.1 h with e | hmem
    · cases e
      exact if_pos rfl
    · have hne : k ≠ a := Nat.ne_of_lt (hlt _ hmem)
      exact (if_neg hne).trans (ih hrest hmem)

theorem mem_of_lookup {a : Nat} {v : Byte} (h : lookup m a = some v) : (a, v) ∈ m := by
  induction m with
  | nil => cases h
  | cons c rest ih =>
    obtain ⟨k, w⟩ := c
    rw [lookup] at h
    split at h
    · next e =>
      cases h
      exact e ▸ List.mem_cons_self
    · exact List.mem_cons_of_mem _ (ih h)

/-- The listed cells are the addresses that do not read as the background, with what they read. -/
theorem mem_iff_read (hm : wf cfg m) {a : Nat} {v : Byte} :
    (a, v) ∈ m ↔ read cfg.font m a = v ∧ v ≠ background cfg.font a := by
  obtain ⟨hsorted, hcells⟩ := hm
  constructor
  · intro h
    obtain ⟨-, hne⟩ := hcells _ h
    exact ⟨by rw [read, lookup_of_mem hsorted h]; rfl, hne⟩
  · rintro ⟨hread, hne⟩
    rw [read] at hread
    cases hl : lookup m a with
    | none =>
      rw [hl] at hread
      exact absurd hread.symm hne
    | some w =>
      rw [hl] at hread
      exact mem_of_lookup (hl.trans (congrArg some hread))

/-- Settles O60: the two lists hold the same cells, in the same strictly rising order. -/
theorem equalContentsAreEqualMemories : Obligations.EqualContentsAreEqualMemories := by
  intro cfg m n hm hn hread
  have hcells (c : Host.Cell) : c ∈ m ↔ c ∈ n := by
    rw [mem_iff_read hm, mem_iff_read hn, hread]
  have : Std.Irrefl fun c d : Host.Cell => c.1 < d.1 := ⟨fun c => Nat.lt_irrefl c.1⟩
  have : Std.Antisymm fun c d : Host.Cell => c.1 < d.1 :=
    ⟨fun c d h h' => absurd h (Nat.lt_asymm h')⟩
  exact hm.1.eq_of_mem_iff hn.1 hcells

end Sys2Proof.Machine.Memory

/-! ## Elements an instruction does not use (`10_state.md` R27, R28, R35): the timers and the
environment's answers to come. Writing them and then executing is executing and then writing them -/

namespace Sys2Proof.Machine

/-- The timers and the environment's side written over. -/
def State.override (d e : Byte → Byte) (f : Env → Env) (s : State) : State :=
  { s with DT := d s.DT, ST := e s.ST, env := f s.env }

variable {s t : State} {i : Instr} {d e : Byte → Byte} {f : Env → Env}

/-! ### Operations on a list commute with what one of their steps commutes with -/

theorem pokeMany_comm {g : State → State} (hg : ∀ s a v, (g s).poke a v = g (s.poke a v))
    (a : Nat) (bs : List Byte) (s : State) :
    State.pokeMany a bs (g s) = g (State.pokeMany a bs s) := by
  induction bs generalizing a s with
  | nil => rfl
  | cons b bs ih => rw [State.pokeMany, hg, ih, State.pokeMany]

theorem writeRegsFrom_comm {g : State → State}
    (hg : ∀ s x b, (g s).writeReg x b = g (s.writeReg x b)) (k : Nat) (bs : List Byte) (s : State) :
    State.writeRegsFrom k bs (g s) = g (State.writeRegsFrom k bs s) := by
  induction bs generalizing k s with
  | nil => rfl
  | cons b bs ih => rw [State.writeRegsFrom, hg, ih, State.writeRegsFrom]

theorem peekMany_override (s : State) (a n : Nat) :
    (s.override d e f).peekMany a n = s.peekMany a n := by
  induction n generalizing a with
  | zero => rfl
  | succ n ih =>
    rw [State.peekMany, ih]
    rfl

theorem drawPixel_override (r x0 : Nat) (row : Byte) (s : State) (j : Nat) :
    State.drawPixel r x0 row (s.override d e f) j =
      (State.drawPixel r x0 row s j).override d e f := by
  unfold State.drawPixel
  rw [apply_ite (State.override d e f)]
  rfl

theorem drawRow_override (x0 y0 : Nat) (s : State) (r : Nat) :
    State.drawRow x0 y0 (s.override d e f) r = (State.drawRow x0 y0 s r).override d e f :=
  List.foldl_hom (State.override d e f) (drawPixel_override _ _ _)

theorem drawSprite_override (s : State) (x y : RegIdx) (n : Nibble) :
    (s.override d e f).drawSprite x y n = (s.drawSprite x y n).override d e f :=
  List.foldl_hom (State.override d e f) (init := s.writeReg vf (flagByte false))
    (drawRow_override _ _)

/-- An instruction that leaves alone what is written over, or of which nothing is, runs alike. -/
theorem exec_override
    (hf : ∀ v o, f { v with outputs := o :: v.outputs } =
      { f v with outputs := o :: (f v).outputs })
    (htimer : i.usesTimer = true → d = id ∧ e = id) (hasks : i.asks = true → f = id)
    (h : exec i s = .next t) : exec i (s.override d e f) = .next (t.override d e f) := by
  cases i
  case sys nnn =>
    cases h
    exact congrArg (fun v => Host.Outcome.next { s.override d e f with env := v }) (hf _ _).symm
  case ldVxDt | ldDtVx | ldStVx =>
    obtain ⟨rfl, rfl⟩ := htimer rfl
    cases h
    rfl
  case cls | rnd =>
    obtain rfl := hasks rfl
    cases h
    rfl
  case skp | sknp =>
    obtain rfl := hasks rfl
    cases h
    rw [State.skipOnKey, apply_ite (State.override d e id)]
    rfl
  case drw x y n =>
    obtain rfl := hasks rfl
    rcases execDrw_cases h with ⟨_, hfault, rfl⟩ | ⟨hfault, rfl⟩
    · exact exec_drw_of_drawFault x hfault
    · refine (exec_drw_of_inside (s := s.override d e id) x (drawFault_none.1 hfault)).trans ?_
      rw [drawSprite_override]
      rfl
  case ret | call =>
    cases h
    rw [apply_ite (State.override d e f)]
    rfl
  case ldVxK x =>
    rcases execLdVxK_cases h with ⟨hw, rfl⟩ | ⟨hw, rfl⟩ | ⟨k, hw, rfl⟩
    · exact exec_ldVxK_of_notWaiting x hw
    · exact exec_ldVxK_of_armed x hw
    · exact exec_ldVxK_of_captured x hw
  case ldBVx x =>
    rcases execLdBVx_cases h with ⟨_, hfault, rfl⟩ | ⟨hfault, rfl⟩
    · exact exec_ldBVx_of_fault hfault
    · refine (exec_ldBVx_of_inside (s := s.override d e f)
        (State.spanFault_eq_none.1 hfault)).trans ?_
      rw [pokeMany_comm (g := State.override d e f) fun _ _ _ => rfl]
      rfl
  case ldMemVx x =>
    rcases execLdMemVx_cases h with ⟨_, hfault, rfl⟩ | ⟨hfault, rfl⟩
    · exact exec_ldMemVx_of_fault hfault
    · refine (exec_ldMemVx_of_inside (s := s.override d e f)
        (State.spanFault_eq_none.1 hfault)).trans ?_
      rw [pokeMany_comm (g := State.override d e f) fun _ _ _ => rfl]
      rfl
  case ldVxMem x =>
    rcases execLdVxMem_cases h with ⟨_, hfault, rfl⟩ | ⟨hfault, rfl⟩
    · exact exec_ldVxMem_of_fault hfault
    · refine (exec_ldVxMem_of_inside (s := s.override d e f)
        (State.spanFault_eq_none.1 hfault)).trans ?_
      rw [peekMany_override, writeRegsFrom_comm (g := State.override d e f) fun _ _ _ => rfl]
      rfl
  all_goals
    cases h
    rfl

/-- Settles O48: the answers to come are written over, the outputs are kept. -/
theorem onlyAskingInstructionsSeeTheAnswers : Obligations.OnlyAskingInstructionsSeeTheAnswers := by
  intro i s t e hi h
  exact exec_override (d := id) (e := id) (f := fun v => { e with outputs := v.outputs })
    (fun _ _ => rfl) (fun _ => ⟨rfl, rfl⟩)
    (fun hasks => absurd (hi.symm.trans hasks) Bool.false_ne_true) h

/-- Settles O50: without a fault a tick writes the timers over. -/
theorem ticksCommuteWithOtherInstructions : Obligations.TicksCommuteWithOtherInstructions := by
  intro i s t hi hs ht h
  rw [tick60_of_clear hs, tick60_of_clear ht]
  exact exec_override (d := countDown) (e := countDown) (f := id) (fun _ _ => rfl)
    (fun htimer => absurd (hi.symm.trans htimer) Bool.false_ne_true) (fun _ => rfl) h

end Sys2Proof.Machine
